-- ==== Sys2Proof/Word.lean ====
section
/-! DEFINITION. The word types of the stm32_qcw control core (00_scope.md R6, R7): one name per width the rules compute with.
A signed register (s16, s32) is the same bit pattern read with `BitVec.toInt`. -/

namespace Sys2Proof

/-- A byte of the serial link, or an 8-bit counter (u8). -/
abbrev Byte := BitVec 8

/-- A 16-bit value: conduction angle (Q0.16), current sample, duration, 16-bit counter (u16), or phase compensation (s16). -/
abbrev Half := BitVec 16

/-- A 32-bit tick value (u32) or phase error (s32): `TW = 32` of R6. -/
abbrev Word := BitVec 32

end Sys2Proof
end

