-- ==== Sys2Proof/Config.lean ====
section
/-! DEFINITION. The configuration record CFG (00_scope.md R4, R5): every value the source leaves to the product.
A record is a parameter of a run, never state of the block; an ill-formed record cannot be built (R5: "the model refuses it",
log entry 2). -/

namespace Sys2Proof

/-- `EDGE_MODE` (R4, 40_pll.md R112): which feedback edges form a raw half-period measurement. -/
inductive EdgeMode where
  | samePolarity
  | anyEdge
deriving DecidableEq, Repr

/-- The fields of CFG with the widths of the table of R4, before the constraints are checked. -/
structure RawConfig where
  /-- `EDGE_MODE` -/
  edgeMode    : EdgeMode
  /-- `FILTER_SHIFT`, u4: the shift k of the filter weight 2^-k -/
  filterShift : BitVec 4
  /-- `LOCK_THRESH`, ticks -/
  lockThresh  : Word
  /-- `LOCK_COUNT`, measurements -/
  lockCount   : Byte
  /-- `PERIOD_MIN`, ticks -/
  periodMin   : Word
  /-- `PERIOD_MAX`, ticks -/
  periodMax   : Word
  /-- `PERIOD_INIT`, ticks -/
  periodInit  : Word
  /-- `CA_MAX`, Q0.16 -/
  caMax       : Half
  /-- `CA_INIT`, Q0.16 -/
  caInit      : Half
  /-- `DEAD_MIN`, ticks -/
  deadMin     : Word
  /-- `PC_MIN`, s16 ticks -/
  pcMin       : Half
  /-- `PC_MAX`, s16 ticks -/
  pcMax       : Half
  /-- `PC_INIT`, s16 ticks -/
  pcInit      : Half
  /-- `TRIP_INST`, sample units -/
  tripInst    : Half
  /-- `TRIP_SUS`, sample units -/
  tripSus     : Half
  /-- `SUS_COUNT`, samples -/
  susCount    : Byte
  /-- `FIRE_MAX`, ticks -/
  fireMax     : Half
deriving DecidableEq, Repr

/-- The period and dead-time constraint of R5: `1 <= DEAD_MIN < PERIOD_MIN <= PERIOD_INIT <= PERIOD_MAX <= 2^31 - 1`. -/
def RawConfig.periodsWf (c : RawConfig) : Bool :=
  decide (1 ≤ c.deadMin.toNat) && decide (c.deadMin.toNat < c.periodMin.toNat) &&
  decide (c.periodMin.toNat ≤ c.periodInit.toNat) && decide (c.periodInit.toNat ≤ c.periodMax.toNat) &&
  decide (c.periodMax.toNat ≤ 2 ^ 31 - 1)

/-- The legal values of R4's table for the conduction angle and phase compensation fields. -/
def RawConfig.paramsWf (c : RawConfig) : Bool :=
  decide (2 ≤ c.caMax.toNat) && decide (1 ≤ c.caInit.toNat) && decide (c.caInit.toNat < c.caMax.toNat) &&
  decide (c.pcMin.toInt ≤ c.pcInit.toInt) && decide (c.pcInit.toInt ≤ c.pcMax.toInt)

/-- The legal values of R4's table for the thresholds and counts. -/
def RawConfig.limitsWf (c : RawConfig) : Bool :=
  decide (1 ≤ c.lockCount.toNat) && decide (c.tripSus.toNat ≤ c.tripInst.toNat) &&
  decide (1 ≤ c.susCount.toNat) && decide (1 ≤ c.fireMax.toNat)

/-- The configuration constraints of R4 and R5. -/
def RawConfig.wf (c : RawConfig) : Bool := c.periodsWf && c.paramsWf && c.limitsWf

/-- A well-formed configuration record. R5: no run of the block exists for an ill-formed one, so none can be built. -/
structure Config extends RawConfig where
  ok : toRawConfig.wf = true
deriving DecidableEq, Repr

/-- The platform's configuration: a well-formed record of which nothing is known (92_eei_decisions.md table 2 leaves every field
OPEN; log entry 1). It has no body: no proof can learn a field of it beyond R4 and R5. -/
opaque Config.platformOf [Inhabited Config] : Config

/-- The platform's configuration. The record given here only shows that a well-formed record exists; its values are not the
platform's and no proof can relate them to it. -/
def Config.platform : Config :=
  @Config.platformOf
    ⟨{ edgeMode := .samePolarity, filterShift := 0, lockThresh := 0, lockCount := 1
       periodMin := 2, periodMax := 2, periodInit := 2, caMax := 2, caInit := 1, deadMin := 1
       pcMin := 0, pcMax := 0, pcInit := 0, tripInst := 0, tripSus := 0, susCount := 1, fireMax := 1
       ok := by decide }⟩

end Sys2Proof
end

