-- ==== Sys2Proof/Syntax.lean ====
section
/-! DEFINITION. The decoded commands (30_encoding.md R98, R99): one constructor per row of the opcode table.
Operands carry the raw decoded value; the range checks are the dispatcher's (R99). -/

namespace Sys2Proof

/-- `Command ::= Run | Stop | SetCA(u16) | SetPC(s16) | Fire(u16) | ResetFault` (R99). -/
inductive Instr where
  /-- RUN (43_command.md R189) -/
  | run
  /-- STOP (R190) -/
  | stop
  /-- SET_PARAM.CA (R191): conduction angle, unsigned Q0.16 -/
  | setParamCa (raw : Half)
  /-- SET_PARAM.PC (R192): phase compensation, the bit pattern of a signed tick count -/
  | setParamPc (raw : Half)
  /-- FIRE_PULSE (R194): duration in ticks -/
  | firePulse (d : Half)
  /-- RESET_FAULT (R195) -/
  | resetFault
deriving DecidableEq, Repr

end Sys2Proof
end

