-- ==== Sys2Proof/WellFormed.lean ====
section
/-! DEFINITION. What a well-formed frame is (30_encoding.md R81 to R85, R91, R92) and which operands a configuration accepts
(R87, R90), each written from the rule's own formula and not from the decoder or the machine. Every term of `Instr` can be encoded:
its operands have the width of their field by type (R99), so `Instr` has no ill-formed term of its own. -/

namespace Sys2Proof

/-- The five fields of a frame, in arrival order (R81). -/
structure Frame where
  sof     : Byte
  cmd     : Byte
  len     : Byte
  payload : List Byte
  chk     : Byte
deriving DecidableEq, Repr

/-- The bytes of a frame in arrival order (R81). -/
def Frame.bytes (f : Frame) : List Byte := f.sof :: f.cmd :: f.len :: (f.payload ++ [f.chk])

/-- R81, R82: byte 0 is SOF. -/
def Frame.sofWf (f : Frame) : Bool := f.sof == 0xA5#8

/-- R84: LEN counts the payload bytes and is at most MAX_PAYLOAD = 8. -/
def Frame.lenWf (f : Frame) : Bool := decide (f.payload.length = f.len.toNat) && decide (f.len.toNat ≤ 8)

/-- R85: `CHECKSUM = (CMD + LEN + PAYLOAD[0] + ...) mod 256`. -/
def Frame.chkWf (f : Frame) : Bool :=
  decide (f.chk.toNat = (f.cmd.toNat + f.len.toNat + (f.payload.map BitVec.toNat).sum) % 256)

/-- R83: the command codes with their required LEN. -/
def requiredLens : List (Nat × Nat) := [(0x01, 0), (0x02, 0), (0x03, 3), (0x04, 2), (0x05, 0)]

/-- R83, R91, R92: CMD is no reserved code and LEN is the one it requires. -/
def Frame.cmdWf (f : Frame) : Bool := requiredLens.contains (f.cmd.toNat, f.len.toNat)

/-- R87, R92: a SET_PARAM frame carries the id 0x00 or 0x01. -/
def Frame.idWf (f : Frame) : Bool := f.cmd != 0x03#8 || f.payload.head? == some 0x00#8 || f.payload.head? == some 0x01#8

/-- A frame that stands for a command of the opcode table (R98). -/
def Frame.wf (f : Frame) : Bool := f.sofWf && f.lenWf && f.chkWf && f.cmdWf && f.idWf

/-- The accepted ranges of R87 and R90 (`1 <= raw < CA_MAX`, `PC_MIN <= sext_16(raw) <= PC_MAX`, `1 <= d <= FIRE_MAX`). -/
def Instr.inRange (c : RawConfig) : Instr → Bool
  | .run          => true
  | .stop         => true
  | .setParamCa r => decide (1 ≤ r.toNat ∧ r.toNat < c.caMax.toNat)
  | .setParamPc r => decide (c.pcMin.toInt ≤ r.toInt ∧ r.toInt ≤ c.pcMax.toInt)
  | .firePulse d  => decide (1 ≤ d.toNat ∧ d.toNat ≤ c.fireMax.toNat)
  | .resetFault   => true

end Sys2Proof
end

