-- ==== Sys2Proof/Decode.lean ====
section
/-! DEFINITION. Decoding frames into commands and encoding commands into frames (30_encoding.md R81 to R99, 43_command.md R181 to
R187). The checks come in the order of 60_exceptions.md R223: LEN above 8, checksum, unknown CMD, LEN mismatch, bad id. -/

namespace Sys2Proof

/-- `SOF = 0xA5` (00_scope.md R6). -/
def sofByte : Byte := 0xA5#8

/-- `MAX_PAYLOAD = 8` (R6). -/
def maxPayload : Nat := 8

/-- A 16-bit field from its two payload bytes, least-significant byte first: `{hi, lo}` (30_encoding.md R86, 20_memory.md R62). -/
def le16 (lo hi : Byte) : Half := hi ++ lo

/-- `lo(v) = v mod 256` (R95). -/
def loByte (v : Half) : Byte := v.extractLsb' 0 8

/-- `hi(v) = floor(v / 256) mod 256` (R95). -/
def hiByte (v : Half) : Byte := v.extractLsb' 8 8

/-- The checksum of R85: the 8-bit sum of CMD, LEN and the payload; SOF is not summed. -/
def checksum (cmd len : Byte) (payload : List Byte) : Byte := payload.foldl (· + ·) (cmd + len)

/-- Why a byte sequence is no command frame. `notSof` and `incomplete` are the decoder's own: over a stream the parser hunts or
waits there and reports nothing (43_command.md R182, R197; log entry 14). The others are the protocol errors of
60_exceptions.md R221, each with the value its report carries. -/
inductive Reject where
  | notSof (b : Byte)
  | incomplete
  /-- LEN above 8 (R184) -/
  | length (len : Byte)
  /-- the received CHECKSUM byte differs from the sum (R186) -/
  | checksum (chk : Byte)
  /-- a reserved CMD (R91) -/
  | unknownCmd (cmd : Byte)
  /-- a known CMD with another LEN than it requires (R92) -/
  | lenMismatch (len : Byte)
  /-- a reserved SET_PARAM id (R193) -/
  | badId (id : Byte)
deriving DecidableEq, Repr

/-- The command of a frame with a correct checksum, from CMD, LEN and the first three payload bytes (R187 less its range checks,
which are the meanings'). -/
def decodeCommand (cmd len p0 p1 p2 : Byte) : Except Reject Instr :=
  if cmd = 0x01#8 then
    if len = 0#8 then .ok .run else .error (.lenMismatch len)
  else if cmd = 0x02#8 then
    if len = 0#8 then .ok .stop else .error (.lenMismatch len)
  else if cmd = 0x03#8 then
    if len = 3#8 then
      if p0 = 0x00#8 then .ok (.setParamCa (le16 p1 p2))
      else if p0 = 0x01#8 then .ok (.setParamPc (le16 p1 p2))
      else .error (.badId p0)
    else .error (.lenMismatch len)
  else if cmd = 0x04#8 then
    if len = 2#8 then .ok (.firePulse (le16 p0 p1)) else .error (.lenMismatch len)
  else if cmd = 0x05#8 then
    if len = 0#8 then .ok .resetFault else .error (.lenMismatch len)
  else .error (.unknownCmd cmd)

/-- The rest of a frame after CMD and LEN: LEN payload bytes, then the checksum (R81, R85). -/
def decodeBody (cmd len : Byte) (rest : List Byte) : Except Reject (Instr × List Byte) :=
  match rest.drop len.toNat with
  | [] => .error .incomplete
  | chk :: tail =>
    let pay := rest.take len.toNat
    if chk = checksum cmd len pay then
      match decodeCommand cmd len (pay.getD 0 0) (pay.getD 1 0) (pay.getD 2 0) with
      | .ok i    => .ok (i, tail)
      | .error r => .error r
    else .error (.checksum chk)

/-- The command that a byte sequence opens with, and the bytes after its frame; or why there is none. -/
def decode : List Byte → Except Reject (Instr × List Byte)
  | sof :: cmd :: len :: rest =>
    if sof = sofByte then
      if maxPayload < len.toNat then .error (.length len) else decodeBody cmd len rest
    else .error (.notSof sof)
  | sof :: _ => if sof = sofByte then .error .incomplete else .error (.notSof sof)
  | [] => .error .incomplete

/-- The frame of a command (R95). -/
def encode : Instr → List Byte
  | .run          => [0xA5, 0x01, 0x00, 0x01]
  | .stop         => [0xA5, 0x02, 0x00, 0x02]
  | .setParamCa r => [0xA5, 0x03, 0x03, 0x00, loByte r, hiByte r, 0x03 + 0x03 + 0x00 + loByte r + hiByte r]
  | .setParamPc r => [0xA5, 0x03, 0x03, 0x01, loByte r, hiByte r, 0x03 + 0x03 + 0x01 + loByte r + hiByte r]
  | .firePulse d  => [0xA5, 0x04, 0x02, loByte d, hiByte d, 0x04 + 0x02 + loByte d + hiByte d]
  | .resetFault   => [0xA5, 0x05, 0x00, 0x05]

/-- A frame with any CMD, LEN and payload and a correct checksum (R95, `FRAME`). -/
def frameBytes (cmd len : Byte) (payload : List Byte) : List Byte :=
  sofByte :: cmd :: len :: (payload ++ [checksum cmd len payload])

/-- The `n` low bytes of a number, most significant first. -/
def bytesOf : Nat → Nat → List Byte
  | 0, _     => []
  | n + 1, w => BitVec.ofNat 8 (w / 256 ^ n) :: bytesOf n w

/-- The frame that a number of the opcode table stands for, in arrival order: the table writes a frame as one pattern "with byte 0 in
the most significant position" (R98; log entry 6). Bytes the table gives no bits are 0. -/
def tableFrame (nbits w : Nat) : List Byte :=
  let bs := bytesOf (nbits / 8) w
  (bs ++ List.replicate 12 0#8).take (4 + (bs.getD 2 0).toNat)

/-- The command the decoder reads from an instruction of `nbits` bits `w`, numbered as the opcode table numbers them. -/
def decodeTableWord (nbits w : Nat) : Option Instr :=
  match decode (tableFrame nbits w) with
  | .ok (i, _) => some i
  | .error _   => none

end Sys2Proof
end

