-- ==== Sys2Proof/Machine/Arith.lean ====
section
/-! DEFINITION. The arithmetic operators of 00_scope.md R9 that the rules use. `+32` and `-32` are `+` and `-` of `Word`; `s32` and
`sext_16` are `BitVec.toInt`; other arithmetic is on Nat and Int, narrowed where the result is stored. -/

namespace Sys2Proof.Machine

/-- `sat_inc_N(c) = min(c + 1, 2^N - 1)`. -/
def satInc {n : Nat} (c : BitVec n) : BitVec n := BitVec.ofNat n (min (c.toNat + 1) (2 ^ n - 1))

/-- `asr(x, k) = floor(x / 2^k)`: rounds toward minus infinity. -/
def asr (x : Int) (k : Nat) : Int := x / (2 : Int) ^ k

/-- `clamp(x, lo, hi) = min(max(x, lo), hi)`. -/
def clamp (x lo hi : Int) : Int := min (max x lo) hi

/-- `x mod p`, the floored modulo, for `p >= 1`: `x - p * floor(x / p)`. -/
def floorMod (x p : Int) : Int := x - p * (x / p)

/-- `sat_add_s32(a, e) = clamp(a + e, -2^31, 2^31 - 1)` on two s32 patterns. -/
def satAddS32 (a e : Word) : Word := BitVec.ofInt 32 (clamp (a.toInt + e.toInt) (-2 ^ 31) (2 ^ 31 - 1))

/-- `zext_32` of a byte. -/
def zextByte (b : Byte) : Word := b.setWidth 32

/-- `zext_32` of a 16-bit value. -/
def zextHalf (h : Half) : Word := h.setWidth 32

end Sys2Proof.Machine
end

