-- ==== Sys2Proof/Machine/State.lean ====
section
/-! DEFINITION. The state of the block (10_state.md R20 to R49): the registers of R22 to R39 grouped as the source's records, the
ports, and the model's own fields `cfg` and `trace` (log entries 1 and 3). Plain data throughout. -/

namespace Sys2Proof.Machine

/-- Polarity of a feedback edge (R42: 1 = rising, 0 = falling). -/
inductive Polarity where
  | falling
  | rising
deriving DecidableEq, Repr

/-- The tracker's registers `TRK_*` (R22 to R30; the source's TrackedPeriod). -/
structure Tracker where
  /-- `TRK_SEEN[0]` -/
  seenFalling  : Bool
  /-- `TRK_SEEN[1]` -/
  seenRising   : Bool
  /-- `TRK_TLAST[0]` -/
  tlastFalling : Word
  /-- `TRK_TLAST[1]` -/
  tlastRising  : Word
  /-- `TRK_ANYV` -/
  anyV         : Bool
  /-- `TRK_TANY` -/
  tAny         : Word
  /-- `TRK_HAVE` -/
  have1        : Bool
  /-- `TRK_PERIOD` -/
  period       : Word
  /-- `TRK_PERR`, s32 -/
  perr         : Word
  /-- `TRK_PACC`, s32 -/
  pacc         : Word
  /-- `TRK_LOCKCNT` -/
  lockCnt      : Byte
  /-- `TRK_LOCKED` -/
  locked       : Bool
  /-- `TRK_FAULTCNT` -/
  faultCnt     : Half
deriving DecidableEq, Repr

/-- The parameter register file `PAR_*` (R31 to R33; the source's DriveParameters). -/
structure Params where
  /-- `PAR_CA`, Q0.16, parameter number 0x00 -/
  ca  : Half
  /-- `PAR_PC`, s16, parameter number 0x01 -/
  pc  : Half
  /-- `PAR_RUN` -/
  run : Bool
deriving DecidableEq, Repr

/-- The FIRE_PULSE timer `PUL_*` (R34). -/
structure Pulse where
  /-- `PUL_ACTIVE` -/
  active : Bool
  /-- `PUL_START` -/
  start  : Word
  /-- `PUL_DUR` -/
  dur    : Half
deriving DecidableEq, Repr

/-- The current monitor's registers `PROT_*` (R35 to R37; the source's ProtectionState). -/
structure Monitor where
  /-- `PROT_LATCHED`: 0 = NORMAL, 1 = FAULT_LATCHED -/
  latched  : Bool
  /-- `PROT_LAST` -/
  last     : Half
  /-- `PROT_PEAK` -/
  peak     : Half
  /-- `PROT_SUSCNT` -/
  susCnt   : Byte
  /-- `PROT_LATCHCNT` -/
  latchCnt : Half
deriving DecidableEq, Repr

/-- `CP_STATE` (R38): the frame byte the parser expects next. The codes 5 to 7 are never reached and not representable. -/
inductive ParserState where
  | idle
  | cmd
  | len
  | pay
  | chk
deriving DecidableEq, Repr

/-- `CP_BUF[0]` to `CP_BUF[7]` (R38). -/
structure PayloadBuffer where
  b0 : Byte
  b1 : Byte
  b2 : Byte
  b3 : Byte
  b4 : Byte
  b5 : Byte
  b6 : Byte
  b7 : Byte
deriving DecidableEq, Repr

/-- The parser's registers `CP_*` (R38). -/
structure Parser where
  /-- `CP_STATE` -/
  state  : ParserState
  /-- `CP_CMD` -/
  cmd    : Byte
  /-- `CP_LEN` -/
  len    : Byte
  /-- `CP_CNT`, u4 -/
  cnt    : BitVec 4
  /-- `CP_SUM` -/
  sum    : Byte
  /-- `CP_BUF` -/
  buf    : PayloadBuffer
  /-- `CP_ERRCNT` -/
  errCnt : Half
deriving DecidableEq, Repr

/-- One feedback edge of `IN_EDGE` (R42). -/
structure Edge where
  ts  : Word
  pol : Polarity
deriving DecidableEq, Repr

/-- The input ports in one clock (R40 to R43, R45, R46). A port's `valid` bit is the `Option`. -/
structure PortIn where
  /-- `IN_RESET` -/
  reset  : Bool
  /-- `IN_NOW` -/
  now    : Word
  /-- `IN_SAMPLE` -/
  sample : Option Half
  /-- `IN_EDGE` -/
  edge   : Option Edge
  /-- `IN_BYTE` -/
  byte   : Option Byte
  /-- `IN_CYCLE` -/
  cycle  : Bool
deriving DecidableEq, Repr

/-- `OUT_EDGESET` (R44). -/
structure EdgeSet where
  valid  : Bool
  ref    : Word
  period : Word
  active : Bool
  half   : Bool
  p1Rise : Word
  p1Fall : Word
  p2Rise : Word
  p2Fall : Word
deriving DecidableEq, Repr

/-- The report codes of 60_exceptions.md R221; no other code is ever produced. -/
inductive ReportCode where
  | trkRange
  | trkTimeout
  | protoChecksum
  | protoLength
  | protoUnknownCmd
  | protoLenMismatch
  | protoBadId
  | protoRange
  | safetyTripInst
  | safetyTripSus
deriving DecidableEq, Repr

/-- A report record `(code, info)` (60_exceptions.md R222). -/
structure Report where
  code : ReportCode
  info : Word
deriving DecidableEq, Repr

/-- The output ports that are driven clock by clock: `OUT_EDGESET` (R44) and `OUT_REPORT` (R48). `OUT_INHIBIT`, `OUT_STATUS` and
`OUT_OBS` are functions of the registers (R47, R49). -/
structure PortOut where
  edgeSet : EdgeSet
  report  : List Report
deriving DecidableEq, Repr

/-- The whole state. The registers of R20 are exactly `trk`, `par`, `pul`, `prot`, `cp` and `wgHalf`. -/
structure State where
  /-- CFG (00_scope.md R4): constant for the whole run -/
  cfg    : Config
  trk    : Tracker
  par    : Params
  pul    : Pulse
  prot   : Monitor
  cp     : Parser
  /-- `WG_HALF` (R39) -/
  wgHalf : Bool
  /-- the input ports of the clock last processed (during a step: of the clock being processed) -/
  inp    : PortIn
  /-- the output ports of that clock -/
  out    : PortOut
  /-- the input ports of the clocks still to come, oldest first: the platform's, not the block's (log entry 3) -/
  trace  : List PortIn
deriving DecidableEq, Repr

/-- The block has no fault that stops it: every handler is total (00_scope.md R11), and there is no trap (60_exceptions.md R220,
R226). The type is empty, so nothing can raise one. -/
inductive Fault where
deriving DecidableEq, Repr

/-- Where the model stops without a meaning. -/
inductive Refusal where
  /-- An arm of `exec` that has no meaning yet. No arm answers it. Safe. -/
  | notModelled (mnemonic : String)
  /-- Raised by the framer (`onByte`) for a payload byte while `CP_CNT >= 8`: `CP_BUF` has no such element, no rule gives a result,
  and no run reaches it (43_command.md R185; 93_implementation_defined.md K19, "refuse"; log entry 7). Safe. -/
  | payloadIndexPastBuffer
  /-- Raised by `onCycle` for an active edge set with `TRK_PERIOD = 0`: `x mod p` is defined for `p >= 1` only (00_scope.md R9), and no
  run reaches it (40_pll.md R122; log entry 8). Safe. -/
  | moduloByZeroPeriod
deriving DecidableEq, Repr

/-- R251, `TRK_*`. -/
def Tracker.reset (c : Config) : Tracker where
  seenFalling := false
  seenRising := false
  tlastFalling := 0
  tlastRising := 0
  anyV := false
  tAny := 0
  have1 := false
  period := c.periodInit
  perr := 0
  pacc := 0
  lockCnt := 0
  locked := false
  faultCnt := 0

/-- R251, `PAR_*`. -/
def Params.reset (c : Config) : Params := { ca := c.caInit, pc := c.pcInit, run := false }

/-- R251, `PUL_*`. -/
def Pulse.reset : Pulse := { active := false, start := 0, dur := 0 }

/-- R251, `PROT_*`. -/
def Monitor.reset : Monitor := { latched := false, last := 0, peak := 0, susCnt := 0, latchCnt := 0 }

/-- R251, `CP_BUF`. -/
def PayloadBuffer.reset : PayloadBuffer := { b0 := 0, b1 := 0, b2 := 0, b3 := 0, b4 := 0, b5 := 0, b6 := 0, b7 := 0 }

/-- R251, `CP_*`. -/
def Parser.reset : Parser :=
  { state := .idle, cmd := 0, len := 0, cnt := 0, sum := 0, buf := .reset, errCnt := 0 }

/-- A clock with no event at tick `now` (R50: it changes no state). -/
def PortIn.idle (now : Word) : PortIn :=
  { reset := false, now := now, sample := none, edge := none, byte := none, cycle := false }

/-- R44: outside the clocks of a CYCLE `valid = 0` and the other fields are 0. -/
def EdgeSet.none : EdgeSet :=
  { valid := false, ref := 0, period := 0, active := false, half := false, p1Rise := 0, p1Fall := 0, p2Rise := 0, p2Fall := 0 }

/-- No edge set and no report: the outputs at the start of a clock (R50) and of a reset clock (R250). -/
def PortOut.quiet : PortOut := { edgeSet := .none, report := [] }

/-- Every register at the value of 70_reset_and_hazards.md R251. -/
def State.resetRegisters (s : State) : State :=
  { s with trk := .reset s.cfg, par := .reset s.cfg, pul := .reset, prot := .reset, cp := .reset, wgHalf := false }

/-- The state right after the first reset clock (R251, R252, R253) under the configuration `c`, with no clock still to come
(log entry 5 for the ports). -/
def State.resetWith (c : Config) : State where
  cfg := c
  trk := .reset c
  par := .reset c
  pul := .reset
  prot := .reset
  cp := .reset
  wgHalf := false
  inp := .idle 0
  out := .quiet
  trace := []

/-- The state right after reset under the platform's configuration. -/
def State.reset : State := State.resetWith Config.platform

end Sys2Proof.Machine
end

