-- ==== Sys2Proof/Machine/Ops.lean ====
section
/-! DEFINITION. The named operations the handlers share: sequencing, the report output, the protocol error, the latch entry and its
release, the payload buffer, the parser's register movement, and sampling the ports.
The block takes no exception (60_exceptions.md R226): nothing is saved and no handler address exists. `protoError` and `latchEntry`
stand where a processor's exception entry would, `resetFault` where its return would (R220, R227). -/

namespace Sys2Proof.Machine

/-- What a handler answers. -/
abbrev Result := Host.Outcome State Fault Refusal

/-- Run `f` on the state a handler left; a stop stays a stop. -/
def Result.andThen (r : Result) (f : State → Result) : Result :=
  match r with
  | .next s    => f s
  | .fault e   => .fault e
  | .refused e => .refused e

/-- `report(code, info)` (00_scope.md R10, 60_exceptions.md R222): append one record to the clock's `OUT_REPORT`. -/
def report (code : ReportCode) (info : Word) (s : State) : State :=
  { s with out.report := s.out.report ++ [⟨code, info⟩] }

/-- `ProtoError(code, info)` (43_command.md R188): count, report, and nothing else. -/
def protoError (code : ReportCode) (info : Word) (s : State) : State :=
  report code info { s with cp.errCnt := satInc s.cp.errCnt }

/-- The report of a rejected frame (60_exceptions.md R221). The decoder's own two reasons are not reachable from a complete frame and
report nothing (43_command.md R182, R197). -/
def rejectFrame (r : Reject) (s : State) : State :=
  match r with
  | .notSof _        => s
  | .incomplete      => s
  | .length len      => protoError .protoLength (zextByte len) s
  | .checksum chk    => protoError .protoChecksum (zextByte chk) s
  | .unknownCmd cmd  => protoError .protoUnknownCmd (zextByte cmd) s
  | .lenMismatch len => protoError .protoLenMismatch (zextByte len) s
  | .badId id        => protoError .protoBadId (zextByte id) s

/-- Entry into FAULT_LATCHED (42_protection.md R164, R170). -/
def latchEntry (code : ReportCode) (sample : Half) (s : State) : State :=
  report code (zextHalf sample)
    { s with
      prot.latched := true
      prot.latchCnt := satInc s.prot.latchCnt
      par.run := false
      pul.active := false }

/-- `ResetFault()` (42_protection.md R167 to R169): the way out of FAULT_LATCHED, refused while the last sample exceeds `TRIP_SUS`. -/
def resetFault (s : State) : State :=
  if s.prot.latched = true ∧ s.prot.last.toNat ≤ s.cfg.tripSus.toNat then
    { s with prot.latched := false, prot.susCnt := 0, prot.peak := 0 }
  else s

/-- `CP_BUF[i]` for the first three elements, the ones a command reads (R187). -/
def PayloadBuffer.get (b : PayloadBuffer) (i : Nat) : Byte :=
  match i with
  | 0 => b.b0
  | 1 => b.b1
  | 2 => b.b2
  | 3 => b.b3
  | 4 => b.b4
  | 5 => b.b5
  | 6 => b.b6
  | 7 => b.b7
  | _ => 0

/-- `CP_BUF[i] <- v` (00_scope.md R10); there is no element past 7 (the framer refuses before it comes here). -/
def PayloadBuffer.set (b : PayloadBuffer) (i : Nat) (v : Byte) : PayloadBuffer :=
  match i with
  | 0 => { b with b0 := v }
  | 1 => { b with b1 := v }
  | 2 => { b with b2 := v }
  | 3 => { b with b3 := v }
  | 4 => { b with b4 := v }
  | 5 => { b with b5 := v }
  | 6 => { b with b6 := v }
  | 7 => { b with b7 := v }
  | _ => b

/-- The parser's own register movement for one byte (43_command.md R181 to R186), less the protocol errors and the dispatch. -/
def Parser.advance (b : Byte) (p : Parser) : Parser :=
  match p.state with
  | .idle => if b = sofByte then { p with state := .cmd } else p
  | .cmd  => { p with cmd := b, sum := b, state := .len }
  | .len  =>
    { p with
      len := b
      sum := p.sum + b
      cnt := 0
      state := if maxPayload < b.toNat then .idle else if b = 0#8 then .chk else .pay }
  | .pay  =>
    { p with
      buf := p.buf.set p.cnt.toNat b
      sum := p.sum + b
      cnt := p.cnt + 1
      state := if (p.cnt + 1).toNat = p.len.toNat then .chk else .pay }
  | .chk  => { p with state := .idle }

/-- Sample the input ports of the next clock and clear the clock outputs (R50). When no clock is left to come, the clock is idle
(log entry 4). -/
def State.nextClock (s : State) : State :=
  match s.trace with
  | i :: rest => { s with inp := i, out := .quiet, trace := rest }
  | []        => { s with inp := .idle s.inp.now, out := .quiet }

end Sys2Proof.Machine
end

