-- ==== Sys2Proof/Machine/Operands.lean ====
section
/-! DEFINITION. The operand forms of the commands and their accepted ranges (30_encoding.md R86 to R90; 43_command.md R187, R191,
R192, R194), and the two reads of TrackedPeriod the source names (00_scope.md R12). -/

namespace Sys2Proof.Machine

/-- `1 <= raw and raw < CA_MAX`, the operand taken unsigned (R88, R191). -/
def caAccepted (c : RawConfig) (raw : Half) : Bool := decide (1 ≤ raw.toNat) && decide (raw.toNat < c.caMax.toNat)

/-- `PC_MIN <= v and v <= PC_MAX` with `v = sext_16(raw)` (R89, R192). -/
def pcAccepted (c : RawConfig) (raw : Half) : Bool :=
  decide (c.pcMin.toInt ≤ raw.toInt) && decide (raw.toInt ≤ c.pcMax.toInt)

/-- `1 <= d and d <= FIRE_MAX` (R90, R194). -/
def fireAccepted (c : RawConfig) (d : Half) : Bool := decide (1 ≤ d.toNat) && decide (d.toNat ≤ c.fireMax.toNat)

/-- The command that the parser registers spell once a CHECKSUM byte matched: CMD, LEN and `CP_BUF[0..2]` (R187). -/
def frameCommand (p : Parser) : Except Reject Instr :=
  decodeCommand p.cmd p.len (p.buf.get 0) (p.buf.get 1) (p.buf.get 2)

/-- The source's `currentPeriod()`: `TRK_PERIOD` and `TRK_LOCKED` (R12). -/
def State.currentPeriod (s : State) : Word × Bool := (s.trk.period, s.trk.locked)

/-- `TRK_SEEN[p]`. -/
def Tracker.seen (t : Tracker) : Polarity → Bool
  | .falling => t.seenFalling
  | .rising  => t.seenRising

/-- `TRK_TLAST[p]`. -/
def Tracker.tlast (t : Tracker) : Polarity → Word
  | .falling => t.tlastFalling
  | .rising  => t.tlastRising

end Sys2Proof.Machine
end

