-- ==== Sys2Proof/Machine/Flags.lean ====
section
/-! DEFINITION. The status flags (10_state.md R47, R52): the inhibit line, the status word, the report codes' numbers, and the lock
counter with the lock flag (40_pll.md R120). There are no arithmetic condition codes (R52). -/

namespace Sys2Proof.Machine

/-- `inhibited = PROT_LATCHED or (not PAR_RUN)` (41_waveform.md R143), which also drives `OUT_INHIBIT` (R47). -/
def State.inhibit (s : State) : Bool := s.prot.latched || !s.par.run

/-- `OUT_STATUS` (R47): bit 0 LOCKED, 1 FAULT, 2 RUN, 3 PULSE, 4 HAVE, 5 INHIBIT; bits 15:6 read 0. -/
def State.status (s : State) : Half :=
  (BitVec.ofBool s.inhibit ++ BitVec.ofBool s.trk.have1 ++ BitVec.ofBool s.pul.active ++
    BitVec.ofBool s.par.run ++ BitVec.ofBool s.prot.latched ++ BitVec.ofBool s.trk.locked).setWidth 16

/-- The code numbers of 60_exceptions.md R221. -/
def ReportCode.toByte : ReportCode → Byte
  | .trkRange         => 0x01
  | .trkTimeout       => 0x02
  | .protoChecksum    => 0x10
  | .protoLength      => 0x11
  | .protoUnknownCmd  => 0x12
  | .protoLenMismatch => 0x13
  | .protoBadId       => 0x14
  | .protoRange       => 0x15
  | .safetyTripInst   => 0x20
  | .safetyTripSus    => 0x21

/-- The lock counter and lock flag after a phase error `e` (40_pll.md R120): below `LOCK_THRESH` in magnitude counts, anything else
starts over; locked from `LOCK_COUNT` on. -/
def lockUpdate (c : RawConfig) (e : Word) (t : Tracker) : Tracker :=
  let cnt := if e.toInt.natAbs < c.lockThresh.toNat then satInc t.lockCnt else 0
  { t with lockCnt := cnt, locked := decide (c.lockCount.toNat ≤ cnt.toNat) }

/-- Lock lost and one transient tracking fault counted (40_pll.md R119, R124). -/
def trackingFault (t : Tracker) : Tracker :=
  { t with faultCnt := satInc t.faultCnt, lockCnt := 0, locked := false }

end Sys2Proof.Machine
end

