-- ==== Sys2Proof/Machine/Protection.lean ====
section
/-! DEFINITION. The current-threshold monitor: the SAMPLE event (42_protection.md R160 to R166, R170). -/

namespace Sys2Proof.Machine

/-- Last sample, peak and sustained counter (R161, R162); they run in both monitor states. -/
def recordSample (x : Half) (s : State) : State :=
  { s with
    prot.last := x
    prot.peak := if s.prot.peak.toNat < x.toNat then x else s.prot.peak
    prot.susCnt := if s.cfg.tripSus.toNat < x.toNat then satInc s.prot.susCnt else 0 }

/-- The instantaneous trip condition `s > TRIP_INST` (R163). -/
def tripsInst (c : RawConfig) (x : Half) : Bool := decide (c.tripInst.toNat < x.toNat)

/-- The sustained trip condition `PROT_SUSCNT >= SUS_COUNT`, on the counter after R162 (R163). -/
def tripsSus (c : RawConfig) (susCnt : Byte) : Bool := decide (c.susCount.toNat ≤ susCnt.toNat)

/-- `OnSample(s)` (R160): record, then latch on a trip in NORMAL; an instantaneous trip is reported over a sustained one. -/
def onSample (x : Half) (s : State) : State :=
  let s1 := recordSample x s
  if s1.prot.latched then s1
  else if tripsInst s1.cfg.toRawConfig x then latchEntry .safetyTripInst x s1
  else if tripsSus s1.cfg.toRawConfig s1.prot.susCnt then latchEntry .safetyTripSus x s1
  else s1

end Sys2Proof.Machine
end

