-- ==== Sys2Proof/Machine/Command.lean ====
section
/-! DEFINITION. The meanings of the six commands (43_command.md R189 to R195): what a command does in the clock of its frame's CHECKSUM
byte. The parser's own return to IDLE is the framer's (Machine/Framer.lean; log entry 15). -/

namespace Sys2Proof.Machine

/-- RUN, `DoRun()` (R189): a continuous run, which replaces a running pulse; ignored while FAULT_LATCHED. -/
def execRun (s : State) : Result :=
  .next (if s.prot.latched then s else { s with par.run := true, pul.active := false })

/-- STOP, `DoStop()` (R190): always honoured. -/
def execStop (s : State) : Result :=
  .next { s with par.run := false, pul.active := false }

/-- SET_PARAM.CA (R191): stored when `1 <= raw < CA_MAX`, else rejected and never clamped; in both monitor states. -/
def execSetParamCa (raw : Half) (s : State) : Result :=
  .next (if caAccepted s.cfg.toRawConfig raw then { s with par.ca := raw } else protoError .protoRange (zextHalf raw) s)

/-- SET_PARAM.PC (R192): stored when `PC_MIN <= sext_16(raw) <= PC_MAX`, else rejected; in both monitor states. -/
def execSetParamPc (raw : Half) (s : State) : Result :=
  .next (if pcAccepted s.cfg.toRawConfig raw then { s with par.pc := raw } else protoError .protoRange (zextHalf raw) s)

/-- FIRE_PULSE (R194): the range check comes first, latched or not (R187); then `DoFire(d, now)` arms a pulse from `IN_NOW`, ignored
while FAULT_LATCHED. -/
def execFirePulse (d : Half) (s : State) : Result :=
  .next
    (if fireAccepted s.cfg.toRawConfig d then
      if s.prot.latched then s
      else { s with par.run := true, pul := { active := true, start := s.inp.now, dur := d } }
    else protoError .protoRange (zextHalf d) s)

/-- RESET_FAULT (R195): the monitor's `ResetFault()`. -/
def execResetFault (s : State) : Result :=
  .next (resetFault s)

end Sys2Proof.Machine
end

