-- ==== Sys2Proof/Machine/Dispatch.lean ====
section
/-! DEFINITION. One arm per command of the opcode table. -/

namespace Sys2Proof.Machine

def exec (i : Instr) (s : State) : Host.Outcome State Fault Refusal :=
  match i with
  | .run => Sys2Proof.Machine.execRun s
  | .stop => Sys2Proof.Machine.execStop s
  | .setParamCa raw => Sys2Proof.Machine.execSetParamCa raw s
  | .setParamPc raw => Sys2Proof.Machine.execSetParamPc raw s
  | .firePulse d => Sys2Proof.Machine.execFirePulse d s
  | .resetFault => Sys2Proof.Machine.execResetFault s

end Sys2Proof.Machine
end

