-- ==== Sys2Proof/Machine/Framer.lean ====
section
/-! DEFINITION. The byte parser: the BYTE event (43_command.md R180 to R188). -/

namespace Sys2Proof.Machine

/-- The state with the parser registers moved by one byte and nothing else changed. -/
def State.advanceParser (b : Byte) (s : State) : State := { s with cp := s.cp.advance b }

/-- `Dispatch(now)` (R187): the command of the frame just completed, or its protocol error. -/
def dispatch (s : State) : Result :=
  match frameCommand s.cp with
  | .ok i    => exec i s
  | .error r => .next (rejectFrame r s)

/-- `OnByte(b, now)` (R181): each call consumes one byte. -/
def onByte (b : Byte) (s : State) : Result :=
  let s1 := s.advanceParser b
  match s.cp.state with
  | .idle => .next s1
  | .cmd  => .next s1
  | .len  => .next (if maxPayload < b.toNat then rejectFrame (.length b) s1 else s1)
  | .pay  => if maxPayload ≤ s.cp.cnt.toNat then .refused .payloadIndexPastBuffer else .next s1
  | .chk  => if b = s.cp.sum then dispatch s1 else .next (rejectFrame (.checksum b) s1)

end Sys2Proof.Machine
end

