-- ==== Sys2Proof/Machine/Pll.lean ====
section
/-! DEFINITION. The PLL edge tracker and period estimator: the EDGE event (40_pll.md R110 to R121) and the edge timeout, the first part of
CYCLE (R123, R124). -/

namespace Sys2Proof.Machine

/-- `refv`, `ref` of R112: the reference edge of a new edge, when there is one. -/
def Tracker.refEdge (m : EdgeMode) (p : Polarity) (t : Tracker) : Option Word :=
  match m with
  | .samePolarity => if t.seen p then some (t.tlast p) else none
  | .anyEdge      => if t.anyV then some t.tAny else none

/-- `m` of R111: how many half-periods lie between an edge and its reference. -/
def halfPeriods : EdgeMode → Nat
  | .samePolarity => 2
  | .anyEdge      => 1

/-- `raw = (ts -32 ref) >> (m - 1)` (R113). -/
def rawHalfPeriod (m : EdgeMode) (ts ref : Word) : Word := (ts - ref) >>> (halfPeriods m - 1)

/-- `e = s32(ts -32 (ref +32 m * TRK_PERIOD))`, as the bit pattern of the s32 (R114). -/
def phaseError (m : EdgeMode) (ts ref period : Word) : Word :=
  ts - (ref + BitVec.ofNat 32 (halfPeriods m * period.toNat))

/-- `rawc = clamp(raw, PERIOD_MIN, PERIOD_MAX)` (R118). -/
def clampRaw (c : RawConfig) (raw : Word) : Word :=
  BitVec.ofInt 32 (clamp raw.toNat c.periodMin.toNat c.periodMax.toNat)

/-- `TRK_PERIOD + asr(rawc - TRK_PERIOD, FILTER_SHIFT)` (R116). -/
def filterPeriod (c : RawConfig) (rawc period : Word) : Word :=
  BitVec.ofInt 32 (period.toNat + asr ((rawc.toNat : Int) - period.toNat) c.filterShift.toNat)

/-- The phase error, its accumulator, and the lock update of an edge with a prediction (R114, R115, R120). -/
def phaseUpdate (c : RawConfig) (e : Word) (t : Tracker) : Tracker :=
  lockUpdate c e { t with perr := e, pacc := satAddS32 t.pacc e }

/-- The period after a measurement: loaded by the first one (R117), filtered after that (R116). -/
def periodUpdate (c : RawConfig) (rawc : Word) (t : Tracker) : Tracker :=
  { t with
    have1 := true
    period := if t.have1 then filterPeriod c rawc t.period else rawc }

/-- A qualifying edge at `ts` measured from `ref`, up to the range check (R113 to R118, R120). -/
def measureEdge (c : RawConfig) (ts ref : Word) (t : Tracker) : Tracker :=
  let t1 := if t.have1 then phaseUpdate c (phaseError c.edgeMode ts ref t.period) t else t
  periodUpdate c (clampRaw c (rawHalfPeriod c.edgeMode ts ref)) t1

/-- Every edge, qualifying or not, leaves its seeds (R121). -/
def Tracker.seed (p : Polarity) (ts : Word) (t : Tracker) : Tracker :=
  match p with
  | .falling => { t with seenFalling := true, tlastFalling := ts, anyV := true, tAny := ts }
  | .rising  => { t with seenRising := true, tlastRising := ts, anyV := true, tAny := ts }

/-- A qualifying edge: the measurement, and the range fault of R119 when the raw value was clamped. -/
def onMeasurement (ts ref : Word) (s : State) : State :=
  let c := s.cfg.toRawConfig
  let raw := rawHalfPeriod c.edgeMode ts ref
  let s1 := { s with trk := measureEdge c ts ref s.trk }
  if clampRaw c raw = raw then s1
  else report .trkRange raw { s1 with trk := trackingFault s1.trk }

/-- `OnEdge(ts, pol)` (R111). -/
def onEdge (ts : Word) (pol : Polarity) (s : State) : State :=
  let s1 :=
    match s.trk.refEdge s.cfg.edgeMode pol with
    | some ref => onMeasurement ts ref s
    | none     => s
  { s1 with trk := s1.trk.seed pol ts }

/-- `EdgeTimeout(el)` (R124): unlocked, one fault, seeds invalid; the period, `TRK_HAVE` and the phase errors are held. -/
def edgeTimeout (el : Word) (s : State) : State :=
  report .trkTimeout el
    { s with trk := { trackingFault s.trk with seenFalling := false, seenRising := false, anyV := false } }

/-- `TimeoutCheck(now)` (R123): strictly more than two periods since the last edge. -/
def timeoutCheck (now : Word) (s : State) : State :=
  if s.trk.anyV ∧ 2 * s.trk.period.toNat < (now - s.trk.tAny).toNat then edgeTimeout (now - s.trk.tAny) s else s

end Sys2Proof.Machine
end

