-- ==== Sys2Proof/Machine/Waveform.lean ====
section
/-! DEFINITION. The CYCLE event (41_waveform.md R140 to R151): edge timeout, pulse expiry, inhibit multiplexer, edge-time calculator. -/

namespace Sys2Proof.Machine

/-- FIRE_PULSE expiry (R142). -/
def pulseExpiry (now : Word) (s : State) : State :=
  if s.pul.active ∧ s.pul.dur.toNat ≤ (now - s.pul.start).toNat then
    { s with par.run := false, pul.active := false }
  else s

/-- `ca = min(PAR_CA, CA_MAX)` (R144). -/
def effectiveCa (c : RawConfig) (ca : Half) : Nat := min ca.toNat c.caMax.toNat

/-- `on = min((ca * P) >> 16, P - DEAD_MIN)` on exact integers (R145, R146). -/
def onTime (c : RawConfig) (ca : Half) (period : Word) : Int :=
  min (((effectiveCa c ca * period.toNat) / 2 ^ 16 : Nat) : Int) ((period.toNat : Int) - c.deadMin.toNat)

/-- `sh = PAR_PC mod P` (R148), for `P >= 1`. -/
def phaseShift (pc : Half) (period : Word) : Int := floorMod pc.toInt period.toNat

/-- The safe state of R150: both phases de-asserted for the whole cycle. -/
def inhibitedEdgeSet (ref period : Word) (half : Bool) : EdgeSet :=
  { EdgeSet.none with valid := true, ref := ref, period := period, half := half }

/-- The active edge set of R147 and R149, all times offsets from `ref`. -/
def activeEdgeSet (c : RawConfig) (par : Params) (ref period : Word) (half : Bool) : EdgeSet where
  valid := true
  ref := ref
  period := period
  active := true
  half := half
  p1Rise := 0
  p1Fall := BitVec.ofInt 32 (onTime c par.ca period)
  p2Rise := BitVec.ofInt 32 (phaseShift par.pc period)
  p2Fall := BitVec.ofInt 32 (floorMod (phaseShift par.pc period + onTime c par.ca period) period.toNat)

/-- The edge set of a cycle (R140; the source's `nextCycle(period, params, inhibited)`, 00_scope.md R12). -/
def nextEdgeSet (now : Word) (s : State) : EdgeSet :=
  if s.inhibit then inhibitedEdgeSet now s.trk.period s.wgHalf
  else activeEdgeSet s.cfg.toRawConfig s.par now s.trk.period s.wgHalf

/-- Emit the edge set, then toggle the half bit (R151). -/
def emitEdgeSet (now : Word) (s : State) : State :=
  { s with out.edgeSet := nextEdgeSet now s, wgHalf := !s.wgHalf }

/-- `OnCycle(now)` (R140). An active edge set with `TRK_PERIOD = 0`, which no run reaches, has no rule (log entry 8). -/
def onCycle (now : Word) (s : State) : Result :=
  let s1 := pulseExpiry now (timeoutCheck now s)
  if s1.inhibit then .next (emitEdgeSet now s1)
  else if s1.trk.period = 0#32 then .refused .moduloByZeroPeriod
  else .next (emitEdgeSet now s1)

end Sys2Proof.Machine
end

