-- ==== Sys2Proof/Machine/Events.lean ====
section
/-! DEFINITION. The clock of 10_state.md R50 over sampled input ports, the observation port of R49, and how a command's frame is put before
the parser (log entry 6). Machine/Step.lean only calls these. -/

namespace Sys2Proof.Machine

/-- SAMPLE, when `IN_SAMPLE` is valid. -/
def sampleEvent (sample : Option Half) (s : State) : State :=
  match sample with
  | some x => onSample x s
  | none   => s

/-- EDGE, when `IN_EDGE` is valid. -/
def edgeEvent (edge : Option Edge) (s : State) : State :=
  match edge with
  | some e => onEdge e.ts e.pol s
  | none   => s

/-- BYTE, when `IN_BYTE` is valid. -/
def byteEvent (byte : Option Byte) (s : State) : Result :=
  match byte with
  | some b => onByte b s
  | none   => .next s

/-- CYCLE, when `IN_CYCLE` is valid. -/
def cycleEvent (cycle : Bool) (now : Word) (s : State) : Result :=
  if cycle then onCycle now s else .next s

/-- `Step(S, I)` of R50 with `I = s.inp`, the outputs already cleared: a reset clock processes no event (R250); else SAMPLE, EDGE, BYTE,
CYCLE, each on the state the one before it left. -/
def clock (s : State) : Result :=
  if s.inp.reset then .next s.resetRegisters
  else
    (byteEvent s.inp.byte (edgeEvent s.inp.edge (sampleEvent s.inp.sample s))).andThen
      (cycleEvent s.inp.cycle s.inp.now)

/-- `OUT_OBS` (R49): every register of R22 to R39. -/
structure Observation where
  trk    : Tracker
  par    : Params
  pul    : Pulse
  prot   : Monitor
  cp     : Parser
  wgHalf : Bool
deriving DecidableEq, Repr

/-- The observation port at the end of a clock; reading it has no side effect (R49, R64). -/
def State.obs (s : State) : Observation :=
  { trk := s.trk, par := s.par, pul := s.pul, prot := s.prot, cp := s.cp, wgHalf := s.wgHalf }

/-- A clock with one byte on `IN_BYTE` and no other event. -/
def PortIn.ofByte (now : Word) (b : Byte) : PortIn := { PortIn.idle now with byte := some b }

/-- The parser after all bytes of a frame but the last, which comes in the next clock: so the next step is the one that dispatches the
frame's command. Nothing outside the parser changes (43_command.md R196). -/
def State.awaitLastByte (s : State) (frame : List Byte) : State :=
  { s with
    cp := frame.dropLast.foldl (fun p b => p.advance b) { s.cp with state := .idle }
    trace := frame.getLast?.toList.map (PortIn.ofByte s.inp.now) ++ s.trace }

end Sys2Proof.Machine
end

