-- ==== Sys2Proof/Machine/Step.lean ====
section
/-! DEFINITION. One step is one clock of the block (10_state.md R50). -/

namespace Sys2Proof.Machine

/-- Sample the ports of the next clock, then run it. -/
def step (s : State) : Host.Outcome State Fault Refusal := clock s.nextClock

/-- `s` with the frame of an opcode-table word before the parser: every byte but the last received, the last one on `IN_BYTE` in the next
clock, so the next step runs the frame's command (log entry 6). -/
def State.withFetchWord (s : State) (nbits w : Nat) : State := s.awaitLastByte (tableFrame nbits w)

end Sys2Proof.Machine
end

