-- ==== Sys2Proof/Machine/Assembler.lean ====
section
/-! DEFINITION. The notation of the test vectors (30_encoding.md R94 to R97) as abstract lines: command lines with their bytes, event lines
with the clocks they stand for. It is no part of the block; the text itself (spaces, decimal or 0x digits) is not parsed
(log entry 16). -/

namespace Sys2Proof.Machine

/-- A command line (R94). -/
inductive CmdLine where
  | run
  | stop
  | resetFault
  /-- `SET_PARAM CA, v`, v used as raw directly -/
  | setCa (v : Nat)
  /-- `SET_PARAM CA, 0.ddd`, the fraction `num / 10^digits` -/
  | setCaFraction (num digits : Nat)
  /-- `SET_PARAM PC, v` -/
  | setPc (v : Int)
  /-- `SET_PARAM id, raw` -/
  | setParam (id raw : Nat)
  /-- `FIRE_PULSE d` -/
  | firePulse (d : Nat)
  /-- `FRAME cmd, len, payload`. The payload need not have `len` bytes (DESIGN CHOICE, log entry 16). -/
  | frame (cmd len : Nat) (payload : List Nat)
  /-- `BYTES b0, b1, ...` -/
  | bytes (bs : List Nat)
deriving DecidableEq, Repr

/-- The operand ranges R94 states. DESIGN CHOICE (log entry 16): R94 gives a FRAME line its `len` apart from its payload, R95 writes `n`
payload bytes for LEN `n`, and neither says what a line with another number of them is; such a line is accepted. -/
def CmdLine.wf : CmdLine → Bool
  | .run                  => true
  | .stop                 => true
  | .resetFault           => true
  | .setCa v              => decide (v ≤ 65535)
  | .setCaFraction n k    => decide (n < 10 ^ k)
  | .setPc v              => decide (-32768 ≤ v) && decide (v ≤ 32767)
  | .setParam id raw      => decide (id ≤ 255) && decide (raw ≤ 65535)
  | .firePulse d          => decide (d ≤ 65535)
  | .frame cmd len ps     => decide (cmd ≤ 255) && decide (len ≤ 255) && ps.all (fun p => decide (p ≤ 255))
  | .bytes bs             => bs.all (fun b => decide (b ≤ 255))

/-- `encode(SET_PARAM id, raw)` for any id (R95). -/
def setParamFrame (id : Byte) (raw : Half) : List Byte :=
  [0xA5, 0x03, 0x03, id, loByte raw, hiByte raw, 0x03 + 0x03 + id + loByte raw + hiByte raw]

/-- `raw = floor(f * 65536 + 0.5)` of the fraction `f = num / 10^digits` (R94). -/
def fractionRaw (num digits : Nat) : Nat := (2 * num * 65536 + 10 ^ digits) / (2 * 10 ^ digits)

/-- The bytes a command line stands for (R94, R95). A FRAME line's are its CMD, its LEN as given, the payload bytes it lists, however many,
and the sum of all these (log entry 16). -/
def CmdLine.toBytes : CmdLine → List Byte
  | .run               => encode .run
  | .stop              => encode .stop
  | .resetFault        => encode .resetFault
  | .setCa v           => setParamFrame 0x00 (BitVec.ofNat 16 v)
  | .setCaFraction n k => setParamFrame 0x00 (BitVec.ofNat 16 (fractionRaw n k))
  | .setPc v           => setParamFrame 0x01 (BitVec.ofInt 16 v)
  | .setParam id raw   => setParamFrame (BitVec.ofNat 8 id) (BitVec.ofNat 16 raw)
  | .firePulse d       => encode (.firePulse (BitVec.ofNat 16 d))
  | .frame c n ps      => frameBytes (BitVec.ofNat 8 c) (BitVec.ofNat 8 n) (ps.map (BitVec.ofNat 8))
  | .bytes bs          => bs.map (BitVec.ofNat 8)

/-- A port event of an event line (R96). -/
inductive PortEvent where
  | reset
  | sample (s : Half)
  | edge (ts : Word) (pol : Polarity)
  | byte (b : Byte)
  | cycle
deriving DecidableEq, Repr

/-- An event line (R96): the events of one clock at `IN_NOW = t`, or a command line whose last byte comes at `IN_NOW = t`. -/
inductive EventLine where
  | clock (t : Word) (events : List PortEvent)
  | command (t : Word) (line : CmdLine)
deriving DecidableEq, Repr

/-- One event on its port. -/
def PortIn.present (i : PortIn) : PortEvent → PortIn
  | .reset     => { i with reset := true }
  | .sample s  => { i with sample := some s }
  | .edge ts p => { i with edge := some ⟨ts, p⟩ }
  | .byte b    => { i with byte := some b }
  | .cycle     => { i with cycle := true }

/-- The port an event comes in on (R40 to R46). -/
def PortEvent.port : PortEvent → Nat
  | .reset    => 0
  | .sample _ => 1
  | .edge _ _ => 2
  | .byte _   => 3
  | .cycle    => 4

/-- R51, R96: at most one event per port in a clock; a command line is in range. -/
def EventLine.wf : EventLine → Bool
  | .clock _ es  => decide (es.map PortEvent.port).Nodup
  | .command _ l => l.wf

/-- The clocks an event line stands for (R94, R96): the events of a line in one clock, a command's bytes in consecutive clocks. -/
def EventLine.clocks : EventLine → List PortIn
  | .clock t es  => [es.foldl PortIn.present (PortIn.idle t)]
  | .command t l => l.toBytes.map (PortIn.ofByte t)

end Sys2Proof.Machine
end

