-- ==== Sys2Proof/Safety.lean ====
section
/-! DEFINITION. The terms the statements are made in: runs, the command a clock dispatches, what an edge set means for the driver's
channels, the invariants of reachable states, and what the platform owes the block. -/

namespace Sys2Proof.Machine

/-- `n` clocks one after the other, stopping where a step stops. -/
def run : Nat → State → Result
  | 0, s     => .next s
  | n + 1, s => Result.andThen (step s) (run n)

/-- The state after the SAMPLE and EDGE events of the next clock, before its BYTE event. -/
def State.beforeByte (s : State) : State :=
  edgeEvent s.nextClock.inp.edge (sampleEvent s.nextClock.inp.sample s.nextClock)

/-- The command that the next clock dispatches: its byte is the matching CHECKSUM byte of a frame that decodes (43_command.md R186,
R187). -/
def commandOf (s : State) : Option Instr :=
  if s.nextClock.inp.reset then none
  else if s.cp.state = .chk ∧ s.nextClock.inp.byte = some s.cp.sum then (frameCommand s.cp).toOption
  else none

/-- The report codes of protocol errors (60_exceptions.md R221), the only ones the parser and the commands make. -/
def protoCodes : List ReportCode :=
  [.protoChecksum, .protoLength, .protoUnknownCmd, .protoLenMismatch, .protoBadId, .protoRange]

/-- Along the next `n` clocks there is no reset and no RESET_FAULT command. -/
def noRelease : Nat → State → Prop
  | 0, _     => True
  | n + 1, s =>
    s.nextClock.inp.reset = false ∧ commandOf s ≠ some .resetFault ∧ ∀ t, step s = .next t → noRelease n t

/-- The next clock brings a byte `b` and nothing else. -/
def onlyByte (s : State) (b : Byte) : Prop :=
  s.nextClock.inp = PortIn.ofByte s.nextClock.inp.now b

/-- The next clock brings no event at all. -/
def noEvent (s : State) : Prop := s.nextClock.inp = PortIn.idle s.nextClock.inp.now

/-! ## What an edge set means for the Output Driver (41_waveform.md R152; log entry 17) -/

/-- The two phases. Each drives one pair of complementary channels. -/
inductive Phase where
  | one
  | two
deriving DecidableEq, Repr

/-- Phase 1 is asserted at offset `x` of the window: `p1_rise <= x < p1_fall`. -/
def EdgeSet.phase1At (e : EdgeSet) (x : Nat) : Prop :=
  e.active = true ∧ e.p1Rise.toNat ≤ x ∧ x < e.p1Fall.toNat

/-- `on = (p2_fall - p2_rise) mod period`. -/
def EdgeSet.phase2On (e : EdgeSet) : Int := ((e.p2Fall.toNat : Int) - e.p2Rise.toNat) % e.period.toNat

/-- Phase 2 is asserted at offset `x` of the window: `(x - p2_rise) mod period < on`. -/
def EdgeSet.phase2At (e : EdgeSet) (x : Nat) : Prop :=
  e.active = true ∧ ((x : Int) - e.p2Rise.toNat) % e.period.toNat < e.phase2On

/-- A phase is asserted at offset `x` of the window. With `active = 0` neither is. -/
def EdgeSet.phaseAt (e : EdgeSet) : Phase → Nat → Prop
  | .one => e.phase1At
  | .two => e.phase2At

/-- The cycle window `[ref, ref + period)` of an edge set covers a tick. -/
def EdgeSet.covers (e : EdgeSet) (tick : Word) : Prop := (tick - e.ref).toNat < e.period.toNat

/-- A channel is driven at a tick of the window. The two channels of a phase's complementary pair are named by the value of `half` that
selects them, so `e` drives channel `h` of phase `p` exactly where it asserts the phase and its own half bit is `h`; the pair's other
channel is de-asserted throughout, and with `active = 0` every channel of both pairs is. -/
def EdgeSet.drives (e : EdgeSet) (p : Phase) (h : Bool) (tick : Word) : Prop :=
  e.covers tick ∧ e.half = h ∧ e.phaseAt p (tick - e.ref).toNat

/-- Each edge time lies in `[0, period)` (10_state.md R44). -/
def EdgeSet.inWindow (e : EdgeSet) : Prop :=
  e.p1Rise.toNat < e.period.toNat ∧ e.p1Fall.toNat < e.period.toNat ∧
  e.p2Rise.toNat < e.period.toNat ∧ e.p2Fall.toNat < e.period.toNat

/-! ## Invariants of reachable states -/

/-- 10_state.md R25, 40_pll.md R122: the period lies in the valid band. -/
def PeriodInBand (s : State) : Prop :=
  s.cfg.periodMin.toNat ≤ s.trk.period.toNat ∧ s.trk.period.toNat ≤ s.cfg.periodMax.toNat

/-- 10_state.md R31, R32: the parameter registers hold accepted values. -/
def ParamsInRange (s : State) : Prop :=
  (1 ≤ s.par.ca.toNat ∧ s.par.ca.toNat < s.cfg.caMax.toNat) ∧
  (s.cfg.pcMin.toInt ≤ s.par.pc.toInt ∧ s.par.pc.toInt ≤ s.cfg.pcMax.toInt)

/-- The payload bytes received so far, `CP_BUF[0..CP_CNT-1]`. -/
def Parser.received (p : Parser) : List Byte := (List.range p.cnt.toNat).map p.buf.get

/-- 10_state.md R38, 43_command.md R185: inside a frame the count is below LEN in PAY and equal to it in CHK, LEN is at most 8, and the
running checksum is that of CMD, LEN and the payload received so far. -/
def ParserConsistent (s : State) : Prop :=
  (s.cp.state = .len → s.cp.sum = s.cp.cmd) ∧
  (s.cp.state = .pay →
    s.cp.cnt.toNat < s.cp.len.toNat ∧ s.cp.len.toNat ≤ 8 ∧ s.cp.sum = checksum s.cp.cmd s.cp.len s.cp.received) ∧
  (s.cp.state = .chk →
    s.cp.cnt.toNat = s.cp.len.toNat ∧ s.cp.len.toNat ≤ 8 ∧ s.cp.sum = checksum s.cp.cmd s.cp.len s.cp.received)

/-- 42_protection.md R163, R164, 93_implementation_defined.md K19: a latched block is unarmed; a block in NORMAL has no trip condition
pending; a running pulse is armed and has an accepted duration. -/
def MonitorConsistent (s : State) : Prop :=
  (s.prot.latched = true → s.par.run = false ∧ s.pul.active = false) ∧
  (s.prot.latched = false → s.prot.last.toNat ≤ s.cfg.tripInst.toNat ∧ s.prot.susCnt.toNat < s.cfg.susCount.toNat) ∧
  (s.pul.active = true → s.par.run = true ∧ 1 ≤ s.pul.dur.toNat ∧ s.pul.dur.toNat ≤ s.cfg.fireMax.toNat)

/-- 10_state.md R22 to R29: the lock flag says that the lock counter reached LOCK_COUNT; before the first measurement there is no phase
error and no count; some edge seed is valid exactly when the seed of either polarity is. -/
def TrackerConsistent (s : State) : Prop :=
  (s.trk.locked = true ↔ s.cfg.lockCount.toNat ≤ s.trk.lockCnt.toNat) ∧
  (s.trk.have1 = false → s.trk.perr = 0 ∧ s.trk.pacc = 0 ∧ s.trk.lockCnt = 0) ∧
  (s.trk.anyV = true ↔ s.trk.seenFalling = true ∨ s.trk.seenRising = true)

/-! ## Registers that only the observation port shows -/

/-- The state with every register cleared that steers nothing but these registers: the lock flag and its counter, the phase error and its
accumulator, the peak, and the three event counters (10_state.md R27, R29, R36; 40_pll.md R126; 60_exceptions.md R233). -/
def State.eraseObservers (s : State) : State :=
  { s with
    trk.locked := false
    trk.lockCnt := 0
    trk.perr := 0
    trk.pacc := 0
    trk.faultCnt := 0
    prot.peak := 0
    prot.latchCnt := 0
    cp.errCnt := 0 }

/-- A handler's answer with the state it left erased. -/
def Result.eraseObservers (r : Result) : Result :=
  r.andThen (fun s => .next s.eraseObservers)

/-! ## What the platform owes the block (70_reset_and_hazards.md R260). The block checks none of it (log entry 12).

The block sees timestamps modulo 2^32. The rule speaks of the counts behind them: the platform's monotonic tick count, here a natural
number that does not wrap. -/

/-- The platform's counts of one clock: behind `IN_NOW`, and behind the timestamp of the clock's edge where it has one. -/
structure ClockTicks where
  now  : Nat
  edge : Nat
deriving DecidableEq, Repr

/-- The counts of what went before: of the last clock, of the last edge (behind `TRK_TANY`), of the last edge of each polarity (behind
`TRK_TLAST`), and of the clock that started the last pulse (behind `PUL_START`). -/
structure PastTicks where
  now         : Nat
  edge        : Nat
  fallingEdge : Nat
  risingEdge  : Nat
  pulseStart  : Nat
deriving DecidableEq, Repr

/-- Before the first event. -/
def PastTicks.start : PastTicks := { now := 0, edge := 0, fallingEdge := 0, risingEdge := 0, pulseStart := 0 }

/-- The count of the last edge of a polarity. -/
def PastTicks.ofPolarity (g : PastTicks) : Polarity → Nat
  | .falling => g.fallingEdge
  | .rising  => g.risingEdge

/-- The count of an edge's reference (40_pll.md R112). -/
def PastTicks.refEdge (m : EdgeMode) (p : Polarity) (g : PastTicks) : Nat :=
  match m with
  | .samePolarity => g.ofPolarity p
  | .anyEdge      => g.edge

/-- With the edge of a clock, where it has one. -/
def PastTicks.withEdge (g : PastTicks) (c : ClockTicks) : Option Edge → PastTicks
  | none   => g
  | some e =>
    match e.pol with
    | .falling => { g with edge := c.edge, fallingEdge := c.edge }
    | .rising  => { g with edge := c.edge, risingEdge := c.edge }

/-- The next clock accepts a FIRE_PULSE in NORMAL, so `PUL_START` takes its `IN_NOW` (43_command.md R194). -/
def startsPulse (s : State) : Bool :=
  match commandOf s with
  | some (.firePulse d) => (Instr.firePulse d).inRange s.cfg.toRawConfig && !s.beforeByte.prot.latched
  | _                   => false

/-- The counts that the CYCLE of the next clock compares its own with. -/
def PastTicks.atCycle (g : PastTicks) (c : ClockTicks) (s : State) : PastTicks :=
  { g.withEdge c s.nextClock.inp.edge with pulseStart := if startsPulse s then c.now else g.pulseStart }

/-- After the next clock. -/
def PastTicks.afterClock (g : PastTicks) (c : ClockTicks) (s : State) : PastTicks := { g.atCycle c s with now := c.now }

/-- The counts are those behind the clock's timestamps and do not go back: `IN_NOW` is non-decreasing; an edge is no later than the
`IN_NOW` of its clock and no earlier than the edge before it. -/
def clockTicksOk (g : PastTicks) (c : ClockTicks) (i : PortIn) : Bool :=
  decide (i.now = BitVec.ofNat 32 c.now ∧ g.now ≤ c.now) &&
  (match i.edge with
   | none   => true
   | some e => decide (e.ts = BitVec.ofNat 32 c.edge ∧ c.edge ≤ c.now ∧ g.edge ≤ c.edge))

/-- The counts behind each two timestamps that the next clock compares, the earlier one first: an edge with its reference (40_pll.md
R113), a CYCLE with the last edge (R123), a CYCLE with the start of a running pulse (41_waveform.md R142). -/
def comparedTicks (g : PastTicks) (c : ClockTicks) (s : State) : List (Nat × Nat) :=
  let i := s.nextClock.inp
  let ofEdge :=
    match i.edge with
    | none   => []
    | some e => if (s.trk.refEdge s.cfg.edgeMode e.pol).isSome then [(g.refEdge s.cfg.edgeMode e.pol, c.edge)] else []
  let ofCycle :=
    match byteEvent i.byte s.beforeByte with
    | .next m =>
      (if m.trk.anyV then [((g.atCycle c s).edge, c.now)] else []) ++
      (if m.pul.active then [((g.atCycle c s).pulseStart, c.now)] else [])
    | _       => []
  if i.reset then [] else ofEdge ++ (if i.cycle then ofCycle else [])

/-- R260 for the next clock: the counts go forward, and by less than 2^31 between any two events that the block compares. A clock that
compares nothing may come any number of ticks after the one before it (R262). -/
def nextClockOk (g : PastTicks) (c : ClockTicks) (s : State) : Bool :=
  clockTicksOk g c s.nextClock.inp && (comparedTicks g c s).all (fun p => decide (p.2 < p.1 + 2 ^ 31))

/-- R260 along the next clocks, one entry of the list for each. -/
def timestampsOk : PastTicks → List ClockTicks → State → Bool
  | _, [], _      => true
  | g, c :: cs, s =>
    nextClockOk g c s &&
    (match step s with
     | .next t => timestampsOk (g.afterClock c s) cs t
     | _       => true)

/-- The timestamps that the block holds and may still compare are the counts' low 32 bits, and no count lies after the last clock's. -/
def TimestampsHeld (g : PastTicks) (s : State) : Prop :=
  (∀ p, s.trk.seen p = true → s.trk.tlast p = BitVec.ofNat 32 (g.ofPolarity p)) ∧
  (s.trk.anyV = true → s.trk.tAny = BitVec.ofNat 32 g.edge) ∧
  (s.pul.active = true → s.pul.start = BitVec.ofNat 32 g.pulseStart) ∧
  (∀ p, g.ofPolarity p ≤ g.edge) ∧ g.edge ≤ g.now ∧ g.pulseStart ≤ g.now

end Sys2Proof.Machine
end

