-- ==== Sys2Proof/Certificates/Slice0/Obligations.lean ====
section
/-! DEFINITION. The statements about the model, each with the rule of spec/ it formalises. -/

open Sys2Proof Sys2Proof.Machine

/-! ## Frames -/

/-- The frames the spec prints for the six commands (43_command.md R189 to R195, 95_test_vectors.md section 1.6) decode to them, and so do
four of them as words of the opcode table: RUN, STOP, RESET_FAULT and SET_PARAM.CA. The words are numbered as 30_encoding.md R98 says,
"with byte 0 in the most significant position"; that `decodeTableWord` lays them out so is the model's choice (log entry 6). -/
def Obligations.SpecFramesDecodeToTheirCommands : Prop :=
  decode [0xA5, 0x01, 0x00, 0x01] = .ok (.run, []) ∧
  decode [0xA5, 0x02, 0x00, 0x02] = .ok (.stop, []) ∧
  decode [0xA5, 0x05, 0x00, 0x05] = .ok (.resetFault, []) ∧
  decode [0xA5, 0x03, 0x03, 0x00, 0x52, 0xF8, 0x50] = .ok (.setParamCa 63570, []) ∧
  decode [0xA5, 0x03, 0x03, 0x01, 0x9C, 0xFF, 0xA2] = .ok (.setParamPc (BitVec.ofInt 16 (-100)), []) ∧
  decode [0xA5, 0x04, 0x02, 0xF4, 0x01, 0xFB] = .ok (.firePulse 500, []) ∧
  decodeTableWord 32 0xA5010001 = some .run ∧
  decodeTableWord 32 0xA5020002 = some .stop ∧
  decodeTableWord 32 0xA5050005 = some .resetFault ∧
  decodeTableWord 56 0xA503030052F850 = some (.setParamCa 63570)

/-- Encoding then decoding any command gives it back, with every operand value the field admits, whatever bytes follow
(30_encoding.md R95). -/
def Obligations.DecodeOfEncodeGivesTheCommandBack : Prop :=
  ∀ (i : Instr) (rest : List Byte), decode (encode i ++ rest) = .ok (i, rest)

/-- A command has one frame: what decodes to it is its encoding followed by the bytes left over. -/
def Obligations.EveryDecodedPrefixIsTheEncoding : Prop :=
  ∀ (bs rest : List Byte) (i : Instr), decode bs = .ok (i, rest) → bs = encode i ++ rest

/-- The decoder accepts a frame as such exactly when it is well-formed: SOF, LEN, checksum, CMD with its LEN, and id
(30_encoding.md R98). -/
def Obligations.DecoderAcceptsExactlyWellFormedFrames : Prop :=
  ∀ (f : Frame) (tail : List Byte), (∃ i, decode (f.bytes ++ tail) = .ok (i, tail)) ↔ f.wf = true

/-- 30_encoding.md R85: the checksum is the 8-bit sum of every frame byte after SOF and before CHECKSUM, and a frame whose CHECKSUM byte
differs from it is malformed. -/
def Obligations.ChecksumIsTheSumAfterSof : Prop :=
  (∀ (cmd len : Byte) (pay : List Byte),
    (checksum cmd len pay).toNat = (cmd.toNat + len.toNat + (pay.map BitVec.toNat).sum) % 256) ∧
  (∀ (cmd len chk : Byte) (pay tail : List Byte), pay.length = len.toNat → len.toNat ≤ 8 → chk ≠ checksum cmd len pay →
    decode (sofByte :: cmd :: len :: (pay ++ chk :: tail)) = .error (.checksum chk)) ∧
  (∀ (b : Byte) (s : State), s.cp.state = .chk → b ≠ s.cp.sum →
    onByte b s = .next (protoError .protoChecksum (zextByte b) (s.advanceParser b)))

/-- 30_encoding.md R86: a 16-bit payload field is two consecutive bytes, the first the low one: `hi * 256 + lo`. -/
def Obligations.SixteenBitFieldsAreLittleEndian : Prop :=
  ∀ (lo hi : Byte) (tail : List Byte), ∃ v : Half, v.toNat = hi.toNat * 256 + lo.toNat ∧
    decode (frameBytes 0x03 3 [0x00, lo, hi] ++ tail) = .ok (.setParamCa v, tail) ∧
    decode (frameBytes 0x03 3 [0x01, lo, hi] ++ tail) = .ok (.setParamPc v, tail) ∧
    decode (frameBytes 0x04 2 [lo, hi] ++ tail) = .ok (.firePulse v, tail)

/-- 30_encoding.md R91: the CMD values 0x00 and 0x06 to 0xFF with a correct checksum are rejected as `PROTO_UNKNOWN_CMD`, which counts
one protocol error, makes one report and changes nothing else. -/
def Obligations.ReservedCommandCodesAreRejected : Prop :=
  ∀ (c : Byte), (c.toNat = 0 ∨ 6 ≤ c.toNat) →
    (∀ (len : Byte) (pay tail : List Byte), pay.length = len.toNat → len.toNat ≤ 8 →
      decode (frameBytes c len pay ++ tail) = .error (.unknownCmd c)) ∧
    (∀ (s : State) (b : Byte), s.cp.state = .chk → s.cp.cmd = c → b = s.cp.sum →
      ∃ t, onByte b s = .next t ∧
        t.cp = { s.cp with state := .idle, errCnt := satInc s.cp.errCnt } ∧
        t.out.report = s.out.report ++ [⟨.protoUnknownCmd, zextByte c⟩] ∧
        t.trk = s.trk ∧ t.par = s.par ∧ t.pul = s.pul ∧ t.prot = s.prot ∧ t.wgHalf = s.wgHalf ∧
        t.out.edgeSet = s.out.edgeSet ∧ t.cfg = s.cfg)

/-- 30_encoding.md R92, 43_command.md R187, R193: a known CMD with another LEN is `PROTO_LEN_MISMATCH`, a SET_PARAM id above 0x01 is
`PROTO_BAD_ID`; each counts one protocol error and changes nothing outside the parser. -/
def Obligations.WrongLengthsAndReservedIdsAreRejected : Prop :=
  ∀ (s : State) (b : Byte), s.cp.state = .chk → b = s.cp.sum →
    ((s.cp.cmd.toNat, s.cp.len.toNat) ∈ [(1, 0), (2, 0), (3, 3), (4, 2), (5, 0)] ∨ s.cp.cmd.toNat = 0 ∨ 6 ≤ s.cp.cmd.toNat ∨
      onByte b s = .next (protoError .protoLenMismatch (zextByte s.cp.len) (s.advanceParser b))) ∧
    (s.cp.cmd = 0x03 → s.cp.len = 3 → 2 ≤ (s.cp.buf.get 0).toNat →
      onByte b s = .next (protoError .protoBadId (zextByte (s.cp.buf.get 0)) (s.advanceParser b)))

/-! ## The parser and the step -/

/-- Every clock without a reset runs its SAMPLE, EDGE, BYTE and CYCLE in this order, each on the state the one before it left, and skips
the events it does not bring (10_state.md R50). The clock of a matching CHECKSUM byte runs the decoded command: after its SAMPLE and EDGE
events and the parser's return to IDLE, `exec` of it; then its CYCLE (43_command.md R186, R187). -/
def Obligations.StepRunsTheDecodedCommand : Prop :=
  (∀ (s : State), s.nextClock.inp.reset = false →
    step s =
      Result.andThen
        (byteEvent s.nextClock.inp.byte (edgeEvent s.nextClock.inp.edge (sampleEvent s.nextClock.inp.sample s.nextClock)))
        (cycleEvent s.nextClock.inp.cycle s.nextClock.inp.now)) ∧
  (∀ (s : State) (x : Half) (e : Edge) (b : Byte) (now : Word),
    sampleEvent (some x) s = onSample x s ∧ sampleEvent none s = s ∧
    edgeEvent (some e) s = onEdge e.ts e.pol s ∧ edgeEvent none s = s ∧
    byteEvent (some b) s = onByte b s ∧ byteEvent none s = .next s ∧
    cycleEvent true now s = onCycle now s ∧ cycleEvent false now s = .next s) ∧
  ∀ (s : State) (i : Instr), s.nextClock.inp.reset = false → s.cp.state = .chk →
    s.nextClock.inp.byte = some s.cp.sum → frameCommand s.cp = .ok i →
    step s =
      Result.andThen
        (exec i ((edgeEvent s.nextClock.inp.edge (sampleEvent s.nextClock.inp.sample s.nextClock)).advanceParser s.cp.sum))
        (cycleEvent s.nextClock.inp.cycle s.nextClock.inp.now)

/-- The whole way of a command over the link: its frame, one byte per clock at any ticks, read from IDLE, ends in `exec` of the command at
the tick of the last byte, with nothing else changed but the parser registers (30_encoding.md R95, 43_command.md R181, R196). -/
def Obligations.FrameOverTheLinkRunsItsCommand : Prop :=
  ∀ (i : Instr) (s : State) (front : List Word) (t : Word) (rest : List PortIn),
    s.cp.state = .idle → front.length + 1 = (encode i).length →
    s.trace = List.zipWith PortIn.ofByte (front ++ [t]) (encode i) ++ rest →
    run (encode i).length s =
      exec i
        { s with
          cp := (encode i).foldl (fun p b => p.advance b) s.cp
          inp := PortIn.ofByte t ((encode i).getLastD 0)
          out := .quiet
          trace := rest }

/-- The parser's own record of a frame it has received in full, CHECKSUM byte excepted, decodes to what the decoder reads from the
bytes. -/
def Obligations.ParserRecordDecodesLikeTheBytes : Prop :=
  ∀ (s : State) (tail : List Byte), ParserConsistent s → s.cp.state = .chk →
    (∀ i, frameCommand s.cp = .ok i →
      decode (sofByte :: s.cp.cmd :: s.cp.len :: (s.cp.received ++ s.cp.sum :: tail)) = .ok (i, tail)) ∧
    (∀ r, frameCommand s.cp = .error r →
      decode (sofByte :: s.cp.cmd :: s.cp.len :: (s.cp.received ++ s.cp.sum :: tail)) = .error r)

/-- 43_command.md R196: a byte that is not a CHECKSUM byte changes nothing outside the parser registers and the reports. -/
def Obligations.PartialFramesChangeOnlyTheParser : Prop :=
  ∀ (s t : State) (b : Byte), onlyByte s b → s.cp.state ≠ .chk → step s = .next t →
    t.cfg = s.cfg ∧ t.trk = s.trk ∧ t.par = s.par ∧ t.pul = s.pul ∧ t.prot = s.prot ∧ t.wgHalf = s.wgHalf ∧
    t.out.edgeSet = EdgeSet.none

/-- 43_command.md R198: the parser's only transitions. -/
def Obligations.ParserMovesOnlyAlongItsTransitions : Prop :=
  ∀ (s t : State) (b : Byte), onByte b s = .next t →
    (s.cp.state = .idle → t.cp.state = if b = sofByte then .cmd else .idle) ∧
    (s.cp.state = .cmd → t.cp.state = .len) ∧
    (s.cp.state = .len → t.cp.state = if 8 < b.toNat then .idle else if b = 0 then .chk else .pay) ∧
    (s.cp.state = .pay → t.cp.state = if (s.cp.cnt + 1).toNat = s.cp.len.toNat then .chk else .pay) ∧
    (s.cp.state = .chk → t.cp.state = .idle)

/-- 43_command.md R182: in IDLE a byte other than SOF changes no register, is not counted and makes no report. -/
def Obligations.NoiseInIdleIsDiscarded : Prop :=
  ∀ (s : State) (b : Byte), s.cp.state = .idle →
    (b ≠ 0xA5 → onByte b s = .next s) ∧ (b = 0xA5 → onByte b s = .next { s with cp.state := .cmd })

/-- 43_command.md R184: a LEN above 8 is a protocol error at once and the parser hunts for the next SOF. -/
def Obligations.LengthAboveEightIsRejectedAtOnce : Prop :=
  ∀ (s : State) (b : Byte), s.cp.state = .len →
    (8 < b.toNat → ∃ t, onByte b s = .next t ∧ t.cp.state = .idle ∧ t.cp.errCnt = satInc s.cp.errCnt ∧
      t.out.report = s.out.report ++ [⟨.protoLength, zextByte b⟩]) ∧
    (b.toNat ≤ 8 → ∃ t, onByte b s = .next t ∧ t.cp.state = (if b = 0 then .chk else .pay) ∧ t.cp.errCnt = s.cp.errCnt ∧
      t.out.report = s.out.report) ∧
    (∀ t, onByte b s = .next t → t.cp.len = b ∧ t.cp.sum = s.cp.sum + b ∧ t.cp.cnt = 0)

/-! ## The commands -/

/-- 43_command.md R189: RUN in NORMAL arms a continuous run and stops a running pulse timer; while FAULT_LATCHED it changes nothing. -/
def Obligations.RunArmsUnlessLatched : Prop :=
  decode [0xA5, 0x01, 0x00, 0x01] = .ok (.run, []) ∧
  ∀ (s : State),
    (s.prot.latched = false → exec .run s = .next { s with par.run := true, pul.active := false }) ∧
    (s.prot.latched = true → exec .run s = .next s)

/-- 43_command.md R190: STOP is always honoured, in both monitor states; a CYCLE right after it is inhibited. -/
def Obligations.StopIsAlwaysHonoured : Prop :=
  decode [0xA5, 0x02, 0x00, 0x02] = .ok (.stop, []) ∧
  ∀ (s : State),
    exec .stop s = .next { s with par.run := false, pul.active := false } ∧
    (s.par.run = false → s.pul.active = false → exec .stop s = .next s) ∧
    ∀ now, ∃ t, Result.andThen (exec .stop s) (onCycle now) = .next t ∧ t.out.edgeSet.active = false

/-- 43_command.md R191: SET_PARAM.CA stores exactly the values `1 <= raw < CA_MAX`, latched or not, and rejects every other value as a
protocol error without clamping it; a stored value governs the next CYCLE. -/
def Obligations.SetConductionAngleStoresOrRejects : Prop :=
  (∀ (lo hi : Byte), decode [0xA5, 0x03, 0x03, 0x00, lo, hi, 0x06 + lo + hi] = .ok (.setParamCa (le16 lo hi), [])) ∧
  ∀ (s : State) (raw : Half),
    (1 ≤ raw.toNat → raw.toNat < s.cfg.caMax.toNat → ∀ now t, Result.andThen (exec (.setParamCa raw) s) (onCycle now) = .next t →
      t.out.edgeSet.active = true → t.out.edgeSet.p1Fall = BitVec.ofInt 32 (onTime s.cfg.toRawConfig raw s.trk.period)) ∧
    (1 ≤ raw.toNat → raw.toNat < s.cfg.caMax.toNat → exec (.setParamCa raw) s = .next { s with par.ca := raw }) ∧
    ((raw.toNat = 0 ∨ s.cfg.caMax.toNat ≤ raw.toNat) →
      exec (.setParamCa raw) s =
        .next { s with cp.errCnt := satInc s.cp.errCnt, out.report := s.out.report ++ [⟨.protoRange, zextHalf raw⟩] })

/-- 43_command.md R192: SET_PARAM.PC reads its operand as signed 16 bits and stores exactly the values in `[PC_MIN, PC_MAX]`. -/
def Obligations.SetPhaseCompensationStoresOrRejects : Prop :=
  (∀ (lo hi : Byte), decode [0xA5, 0x03, 0x03, 0x01, lo, hi, 0x07 + lo + hi] = .ok (.setParamPc (le16 lo hi), [])) ∧
  ∀ (s : State) (raw : Half),
    (s.cfg.pcMin.toInt ≤ raw.toInt → raw.toInt ≤ s.cfg.pcMax.toInt →
      exec (.setParamPc raw) s = .next { s with par.pc := raw }) ∧
    ((raw.toInt < s.cfg.pcMin.toInt ∨ s.cfg.pcMax.toInt < raw.toInt) →
      exec (.setParamPc raw) s =
        .next { s with cp.errCnt := satInc s.cp.errCnt, out.report := s.out.report ++ [⟨.protoRange, zextHalf raw⟩] })

/-- 43_command.md R194: an accepted FIRE_PULSE in NORMAL arms a pulse from `IN_NOW`, restarting a running one; while latched it is
ignored; a duration of 0 or above FIRE_MAX is a protocol error, latched or not. The first CYCLE `d` or more ticks later clears the run
flag. -/
def Obligations.FirePulseArmsOneBoundedPulse : Prop :=
  (∀ (lo hi : Byte), decode [0xA5, 0x04, 0x02, lo, hi, 0x06 + lo + hi] = .ok (.firePulse (le16 lo hi), [])) ∧
  ∀ (s : State) (d : Half),
    (1 ≤ d.toNat → d.toNat ≤ s.cfg.fireMax.toNat → s.prot.latched = false → ∀ now t,
      Result.andThen (exec (.firePulse d) s) (onCycle now) = .next t →
        t.par.run = decide ((now - s.inp.now).toNat < d.toNat) ∧ t.pul.active = decide ((now - s.inp.now).toNat < d.toNat)) ∧
    (1 ≤ d.toNat → d.toNat ≤ s.cfg.fireMax.toNat → s.prot.latched = false →
      exec (.firePulse d) s = .next { s with par.run := true, pul := { active := true, start := s.inp.now, dur := d } }) ∧
    (1 ≤ d.toNat → d.toNat ≤ s.cfg.fireMax.toNat → s.prot.latched = true → exec (.firePulse d) s = .next s) ∧
    ((d.toNat = 0 ∨ s.cfg.fireMax.toNat < d.toNat) →
      exec (.firePulse d) s =
        .next { s with cp.errCnt := satInc s.cp.errCnt, out.report := s.out.report ++ [⟨.protoRange, zextHalf d⟩] })

/-- 42_protection.md R167, R168, R169: RESET_FAULT clears the latch, the sustained counter and the peak when the last sample does not exceed
TRIP_SUS; otherwise, and in NORMAL, it changes nothing and reports nothing. -/
def Obligations.ResetFaultClearsOnlyBelowThreshold : Prop :=
  ∀ (s : State),
    (s.prot.latched = true → s.prot.last.toNat ≤ s.cfg.tripSus.toNat →
      exec .resetFault s = .next { s with prot.latched := false, prot.susCnt := 0, prot.peak := 0 }) ∧
    (s.prot.latched = true → s.cfg.tripSus.toNat < s.prot.last.toNat → exec .resetFault s = .next s) ∧
    (s.prot.latched = false → exec .resetFault s = .next s)

/-- The frame of every command: what it leaves unchanged (10_state.md R52; 43_command.md R188 to R195). The only registers a command may
write are named: PAR_CA by SET_PARAM.CA, PAR_PC by SET_PARAM.PC, PAR_RUN and PUL_ACTIVE by RUN, STOP and FIRE_PULSE, PUL_START and PUL_DUR by
FIRE_PULSE, PROT_LATCHED, PROT_PEAK and PROT_SUSCNT by RESET_FAULT, CP_ERRCNT by a rejected operand. -/
def Obligations.CommandsLeaveEverythingElseUnchanged : Prop :=
  ∀ (i : Instr) (s t : State), exec i s = .next t →
    t.cfg = s.cfg ∧ t.trk = s.trk ∧ t.wgHalf = s.wgHalf ∧ t.inp = s.inp ∧ t.trace = s.trace ∧
    t.out.edgeSet = s.out.edgeSet ∧
    t.cp = { s.cp with errCnt := t.cp.errCnt } ∧
    t.prot.last = s.prot.last ∧ t.prot.latchCnt = s.prot.latchCnt ∧
    (i ≠ .resetFault → t.prot = s.prot) ∧
    ((∀ r, i ≠ .setParamCa r) → t.par.ca = s.par.ca) ∧
    ((∀ r, i ≠ .setParamPc r) → t.par.pc = s.par.pc) ∧
    (i ≠ .run → i ≠ .stop → (∀ d, i ≠ .firePulse d) → t.par.run = s.par.run ∧ t.pul.active = s.pul.active) ∧
    ((∀ d, i ≠ .firePulse d) → t.pul.start = s.pul.start ∧ t.pul.dur = s.pul.dur)

/-- A command is a protocol error exactly when its operand is outside the accepted range (30_encoding.md R87, R90); then it changes
nothing but the error count and the reports (43_command.md R188). -/
def Obligations.OnlyOutOfRangeOperandsAreErrors : Prop :=
  ∀ (i : Instr) (s : State), ∃ t, exec i s = .next t ∧
    (i.inRange s.cfg.toRawConfig = true → t.cp.errCnt = s.cp.errCnt ∧ t.out.report = s.out.report) ∧
    (i.inRange s.cfg.toRawConfig = false →
      t.cp.errCnt = satInc s.cp.errCnt ∧ (∃ info, t.out.report = s.out.report ++ [⟨.protoRange, info⟩]) ∧
      t.par = s.par ∧ t.pul = s.pul ∧ t.prot = s.prot)

/-! ## The current monitor -/

/-- 42_protection.md R162, with R161: every sample, latched or not, becomes the last one, raises the peak, and counts or clears the sustained
counter, which saturates at 255. -/
def Obligations.EverySampleIsRecorded : Prop :=
  ∀ (s : State) (x : Half),
    (onSample x s).prot.last = x ∧
    (onSample x s).prot.peak.toNat = max s.prot.peak.toNat x.toNat ∧
    (s.cfg.tripSus.toNat < x.toNat → (onSample x s).prot.susCnt.toNat = min (s.prot.susCnt.toNat + 1) 255) ∧
    (x.toNat ≤ s.cfg.tripSus.toNat → (onSample x s).prot.susCnt = 0)

/-- 42_protection.md R163, R164: in NORMAL a sample above TRIP_INST, or the SUS_COUNT-th in a row above TRIP_SUS, latches, counts, disarms
and reports, the instantaneous cause over the sustained one; any other sample leaves all of that alone. -/
def Obligations.TripLatchesDisarmsAndReports : Prop :=
  ∀ (s : State) (x : Half), s.prot.latched = false →
    let cnt := if s.cfg.tripSus.toNat < x.toNat then min (s.prot.susCnt.toNat + 1) 255 else 0
    let inst := s.cfg.tripInst.toNat < x.toNat
    let sus := s.cfg.susCount.toNat ≤ cnt
    ((inst ∨ sus) →
      (onSample x s).prot.latched = true ∧ (onSample x s).prot.latchCnt.toNat = min (s.prot.latchCnt.toNat + 1) 65535 ∧
      (onSample x s).par = { s.par with run := false } ∧ (onSample x s).pul = { s.pul with active := false }) ∧
    (inst → (onSample x s).out.report = s.out.report ++ [⟨.safetyTripInst, zextHalf x⟩]) ∧
    (¬ inst → sus → (onSample x s).out.report = s.out.report ++ [⟨.safetyTripSus, zextHalf x⟩]) ∧
    (¬ inst → ¬ sus →
      (onSample x s).prot.latched = false ∧ (onSample x s).prot.latchCnt = s.prot.latchCnt ∧
      (onSample x s).par = s.par ∧ (onSample x s).pul = s.pul ∧ (onSample x s).out.report = s.out.report)

/-- The frame of SAMPLE (42_protection.md R160, R165): it never touches the tracker, the parser, the half bit, the edge set, the stored
parameters or the pulse's start and length; while latched it changes only the last sample, the peak and the sustained counter. -/
def Obligations.SamplesLeaveEverythingElseUnchanged : Prop :=
  ∀ (s : State) (x : Half),
    (onSample x s).cfg = s.cfg ∧ (onSample x s).trk = s.trk ∧ (onSample x s).cp = s.cp ∧ (onSample x s).wgHalf = s.wgHalf ∧
    (onSample x s).par.ca = s.par.ca ∧ (onSample x s).par.pc = s.par.pc ∧
    (onSample x s).pul.start = s.pul.start ∧ (onSample x s).pul.dur = s.pul.dur ∧
    (onSample x s).out.edgeSet = s.out.edgeSet ∧
    (s.prot.latched = true →
      onSample x s =
        { s with
          prot.last := x
          prot.peak := (onSample x s).prot.peak
          prot.susCnt := (onSample x s).prot.susCnt })

/-- 42_protection.md R166: only a reset clock or a RESET_FAULT command takes the latch away, the command only when the most recent sample
does not exceed TRIP_SUS. -/
def Obligations.LatchIsSticky : Prop :=
  ∀ (s t : State), step s = .next t → s.prot.latched = true → t.prot.latched = false →
    s.nextClock.inp.reset = true ∨ (commandOf s = some .resetFault ∧ t.prot.last.toNat ≤ s.cfg.tripSus.toNat)

/-- 20_memory.md R68, 70_reset_and_hazards.md R255: a sample that trips the monitor inhibits the edge set of a CYCLE in its own clock,
whatever command that clock dispatches. -/
def Obligations.TripInhibitsTheCycleOfItsOwnClock : Prop :=
  ∀ (s : State) (x : Half), s.nextClock.inp.reset = false → s.nextClock.inp.sample = some x → s.nextClock.inp.cycle = true →
    s.prot.latched = false → (onSample x s).prot.latched = true →
    ∀ t, step s = .next t →
      t.out.edgeSet.valid = true ∧ t.out.edgeSet.active = false ∧ t.prot.latched = true ∧ t.par.run = false ∧ t.inhibit = true

/-- 41_waveform.md R154: from a latched state no run of clocks without a reset and without a RESET_FAULT command, whatever RUN, FIRE_PULSE
and SET_PARAM frames it brings, ends in an active edge set or leaves the latch. -/
def Obligations.LatchedRunsEmitOnlySafeEdgeSets : Prop :=
  ∀ (n : Nat) (s t : State), s.prot.latched = true → noRelease (n + 1) s → run (n + 1) s = .next t →
    t.prot.latched = true ∧ t.out.edgeSet.active = false ∧ t.inhibit = true

/-! ## The edge tracker -/

/-- 40_pll.md R112: the reference edge of each mode, and an edge without one, which only seeds. -/
def Obligations.EdgeWithoutReferenceOnlySeeds : Prop :=
  ∀ (s : State) (ts : Word) (pol : Polarity),
    (s.cfg.edgeMode = .samePolarity →
      s.trk.refEdge s.cfg.edgeMode pol = if s.trk.seen pol = true then some (s.trk.tlast pol) else none) ∧
    (s.cfg.edgeMode = .anyEdge → s.trk.refEdge s.cfg.edgeMode pol = if s.trk.anyV = true then some s.trk.tAny else none) ∧
    (s.trk.refEdge s.cfg.edgeMode pol = none → onEdge ts pol s = { s with trk := s.trk.seed pol ts })

/-- 40_pll.md R121: every edge leaves its own timestamp as the seed of its polarity and of either polarity, in both modes; the other
polarity's seed is unchanged. -/
def Obligations.EveryEdgeSeeds : Prop :=
  ∀ (s : State) (ts : Word) (pol other : Polarity),
    (onEdge ts pol s).trk.seen pol = true ∧ (onEdge ts pol s).trk.tlast pol = ts ∧
    (onEdge ts pol s).trk.anyV = true ∧ (onEdge ts pol s).trk.tAny = ts ∧
    (other ≠ pol →
      (onEdge ts pol s).trk.seen other = s.trk.seen other ∧ (onEdge ts pol s).trk.tlast other = s.trk.tlast other)

/-- 40_pll.md R113, R114, R117, R118: the first measurement loads the clamped raw half-period and computes no error; one in the band keeps
the lock counter and the lock flag (one outside it is `MeasurementOutsideTheBandIsAFault`'s). -/
def Obligations.FirstMeasurementLoadsThePeriod : Prop :=
  ∀ (s : State) (ts ref : Word) (pol : Polarity), s.trk.refEdge s.cfg.edgeMode pol = some ref → s.trk.have1 = false →
    let raw : Nat := (ts - ref).toNat / (if s.cfg.edgeMode = .samePolarity then 2 else 1)
    (onEdge ts pol s).trk.have1 = true ∧
    (onEdge ts pol s).trk.period.toNat = min (max raw s.cfg.periodMin.toNat) s.cfg.periodMax.toNat ∧
    (onEdge ts pol s).trk.perr = s.trk.perr ∧ (onEdge ts pol s).trk.pacc = s.trk.pacc ∧
    (s.cfg.periodMin.toNat ≤ raw → raw ≤ s.cfg.periodMax.toNat →
      (onEdge ts pol s).trk.lockCnt = s.trk.lockCnt ∧ (onEdge ts pol s).trk.locked = s.trk.locked)

/-- 40_pll.md R114, R115: a predicted edge writes the signed wrapped difference from the prediction and adds it to the accumulator with
saturation. -/
def Obligations.PredictedEdgeWritesThePhaseError : Prop :=
  ∀ (s : State) (ts ref : Word) (pol : Polarity), s.trk.refEdge s.cfg.edgeMode pol = some ref → s.trk.have1 = true →
    let m : Nat := if s.cfg.edgeMode = .samePolarity then 2 else 1
    let e : Word := ts - (ref + BitVec.ofNat 32 (m * s.trk.period.toNat))
    (onEdge ts pol s).trk.perr = e ∧
    (onEdge ts pol s).trk.pacc.toInt = min (max (s.trk.pacc.toInt + e.toInt) (-2 ^ 31)) (2 ^ 31 - 1) ∧
    (onEdge ts pol s).trk.have1 = true

/-- 40_pll.md R116: with the period in its band a later measurement moves it by `floor((rawc - P) / 2^FILTER_SHIFT)`, never past the
clamped measurement. -/
def Obligations.FilterMovesTowardTheMeasurement : Prop :=
  ∀ (s : State) (ts ref : Word) (pol : Polarity), PeriodInBand s → s.trk.refEdge s.cfg.edgeMode pol = some ref →
    s.trk.have1 = true →
    let raw : Nat := (ts - ref).toNat / (if s.cfg.edgeMode = .samePolarity then 2 else 1)
    let rawc : Nat := min (max raw s.cfg.periodMin.toNat) s.cfg.periodMax.toNat
    ((onEdge ts pol s).trk.period.toNat : Int) =
      s.trk.period.toNat + ((rawc : Int) - s.trk.period.toNat) / 2 ^ s.cfg.filterShift.toNat ∧
    min s.trk.period.toNat rawc ≤ (onEdge ts pol s).trk.period.toNat ∧
    (onEdge ts pol s).trk.period.toNat ≤ max s.trk.period.toNat rawc

/-- 40_pll.md R119: a raw half-period outside the band counts one fault, drops lock and is reported unclamped; one inside the band, its
ends included, is no fault. -/
def Obligations.MeasurementOutsideTheBandIsAFault : Prop :=
  ∀ (s : State) (ts ref : Word) (pol : Polarity), s.trk.refEdge s.cfg.edgeMode pol = some ref →
    let raw : Nat := (ts - ref).toNat / (if s.cfg.edgeMode = .samePolarity then 2 else 1)
    ((raw < s.cfg.periodMin.toNat ∨ s.cfg.periodMax.toNat < raw) →
      (onEdge ts pol s).trk.faultCnt.toNat = min (s.trk.faultCnt.toNat + 1) 65535 ∧
      (onEdge ts pol s).trk.lockCnt = 0 ∧ (onEdge ts pol s).trk.locked = false ∧
      (onEdge ts pol s).out.report = s.out.report ++ [⟨.trkRange, BitVec.ofNat 32 raw⟩]) ∧
    (s.cfg.periodMin.toNat ≤ raw → raw ≤ s.cfg.periodMax.toNat →
      (onEdge ts pol s).trk.faultCnt = s.trk.faultCnt ∧ (onEdge ts pol s).out.report = s.out.report)

/-- 40_pll.md R120: on a predicted edge whose measurement lies in the band, an error magnitude strictly below LOCK_THRESH counts, any other
starts over, and the lock flag says whether the count reached LOCK_COUNT. -/
def Obligations.LockCountsConsecutiveSmallErrors : Prop :=
  ∀ (s : State) (ts ref : Word) (pol : Polarity), s.trk.refEdge s.cfg.edgeMode pol = some ref → s.trk.have1 = true →
    let m : Nat := if s.cfg.edgeMode = .samePolarity then 2 else 1
    let raw : Nat := (ts - ref).toNat / m
    let e : Word := ts - (ref + BitVec.ofNat 32 (m * s.trk.period.toNat))
    s.cfg.periodMin.toNat ≤ raw → raw ≤ s.cfg.periodMax.toNat →
    (e.toInt.natAbs < s.cfg.lockThresh.toNat → (onEdge ts pol s).trk.lockCnt.toNat = min (s.trk.lockCnt.toNat + 1) 255) ∧
    (s.cfg.lockThresh.toNat ≤ e.toInt.natAbs → (onEdge ts pol s).trk.lockCnt = 0) ∧
    ((onEdge ts pol s).trk.locked = true ↔ s.cfg.lockCount.toNat ≤ (onEdge ts pol s).trk.lockCnt.toNat)

/-- The frame of EDGE (40_pll.md R110, 60_exceptions.md R223): it writes TRK registers only and makes at most the one report TRK_RANGE. -/
def Obligations.EdgesLeaveEverythingElseUnchanged : Prop :=
  ∀ (s : State) (ts : Word) (pol : Polarity),
    (onEdge ts pol s).cfg = s.cfg ∧ (onEdge ts pol s).par = s.par ∧ (onEdge ts pol s).pul = s.pul ∧
    (onEdge ts pol s).prot = s.prot ∧ (onEdge ts pol s).cp = s.cp ∧ (onEdge ts pol s).wgHalf = s.wgHalf ∧
    (onEdge ts pol s).out.edgeSet = s.out.edgeSet ∧
    ((onEdge ts pol s).out.report = s.out.report ∨
      ∃ info, (onEdge ts pol s).out.report = s.out.report ++ [⟨.trkRange, info⟩])

/-- 40_pll.md R127: in SAME_POLARITY mode an edge that comes two half-periods `h` after its reference, up to jitter `j` on each of the two,
has a phase error of at most `2 * |TRK_PERIOD - h| + 2j`. -/
def Obligations.JitterBoundsThePhaseError : Prop :=
  ∀ (s : State) (ref : Word) (pol : Polarity) (h j : Nat) (δ : Int),
    PeriodInBand s → s.cfg.edgeMode = .samePolarity → s.trk.refEdge s.cfg.edgeMode pol = some ref → s.trk.have1 = true →
    s.cfg.periodMin.toNat ≤ h → h ≤ s.cfg.periodMax.toNat → δ.natAbs ≤ 2 * j →
    2 * ((s.trk.period.toNat : Int) - h).natAbs + 2 * j < 2 ^ 31 →
    (onEdge (ref + BitVec.ofInt 32 (2 * h + δ)) pol s).trk.perr.toInt.natAbs ≤
      2 * ((s.trk.period.toNat : Int) - h).natAbs + 2 * j

/-- 40_pll.md R123, R124: strictly more than two periods after the last edge a CYCLE's check unlocks, counts one fault, reports the elapsed
ticks and invalidates the seeds, holding the period, TRK_HAVE and the phase errors; otherwise it changes nothing. -/
def Obligations.MissingEdgeUnlocksAndHoldsThePeriod : Prop :=
  ∀ (s : State) (now : Word),
    (s.trk.anyV = true → 2 * s.trk.period.toNat < (now - s.trk.tAny).toNat →
      timeoutCheck now s =
        { s with
          trk := { s.trk with
            locked := false, lockCnt := 0, faultCnt := satInc s.trk.faultCnt
            seenFalling := false, seenRising := false, anyV := false }
          out.report := s.out.report ++ [⟨.trkTimeout, now - s.trk.tAny⟩] }) ∧
    ((s.trk.anyV = false ∨ (now - s.trk.tAny).toNat ≤ 2 * s.trk.period.toNat) → timeoutCheck now s = s)

/-! ## The cycle -/

/-- 41_waveform.md R150, with R142, R143, R151, R152: a CYCLE that is inhibited, be it by the latch, by an unarmed run flag or by a pulse
that ends in this very CYCLE, emits the safe state, which drives no channel of either pair at any tick, and toggles the half bit. -/
def Obligations.InhibitedCycleEmitsTheSafeState : Prop :=
  ∀ (s : State) (now : Word),
    (s.prot.latched = true ∨ s.par.run = false ∨
      (s.pul.active = true ∧ s.pul.dur.toNat ≤ (now - s.pul.start).toNat)) →
    ∃ t, onCycle now s = .next t ∧ t.wgHalf = !s.wgHalf ∧
      t.out.edgeSet =
        { valid := true, ref := now, period := s.trk.period, active := false, half := s.wgHalf
          p1Rise := 0, p1Fall := 0, p2Rise := 0, p2Fall := 0 } ∧
      ∀ p h tick, ¬ t.out.edgeSet.drives p h tick

/-- 41_waveform.md R144 to R149, R151: an armed CYCLE in NORMAL whose pulse has not expired emits the active edge set, computed on exact
integers, and toggles the half bit. -/
def Obligations.ArmedCycleEmitsTheComputedEdgeSet : Prop :=
  ∀ (s : State) (now : Word), PeriodInBand s → s.prot.latched = false → s.par.run = true →
    (s.pul.active = true → (now - s.pul.start).toNat < s.pul.dur.toNat) →
    let P : Nat := s.trk.period.toNat
    let on : Nat := min (min s.par.ca.toNat s.cfg.caMax.toNat * P / 65536) (P - s.cfg.deadMin.toNat)
    ∃ t, onCycle now s = .next t ∧ t.wgHalf = !s.wgHalf ∧
      t.out.edgeSet.valid = true ∧ t.out.edgeSet.active = true ∧ t.out.edgeSet.half = s.wgHalf ∧
      t.out.edgeSet.ref = now ∧ t.out.edgeSet.period = s.trk.period ∧
      t.out.edgeSet.p1Rise = 0 ∧ t.out.edgeSet.p1Fall.toNat = on ∧
      (t.out.edgeSet.p2Rise.toNat : Int) = s.par.pc.toInt % P ∧
      (t.out.edgeSet.p2Fall.toNat : Int) = (s.par.pc.toInt % P + on) % P

/-- 41_waveform.md R153, 10_state.md R44: every time of an edge set lies in its window, and each phase stays de-asserted for at least DEAD_MIN,
so at least one tick, between its fall and its next rise one period later. -/
def Obligations.EdgeSetsKeepTheDeadTime : Prop :=
  ∀ (s t : State) (now : Word), PeriodInBand s → onCycle now s = .next t →
    t.out.edgeSet.inWindow ∧ 1 ≤ s.cfg.deadMin.toNat ∧
    s.cfg.deadMin.toNat ≤ t.out.edgeSet.period.toNat + t.out.edgeSet.p1Rise.toNat - t.out.edgeSet.p1Fall.toNat ∧
    (s.cfg.deadMin.toNat : Int) ≤ t.out.edgeSet.period.toNat - t.out.edgeSet.phase2On

/-- 41_waveform.md R144 to R149, R152: phase 2 is phase 1 shifted by `p2_rise`, wrapped in the window. At offset `x` of its window an
edge set drives, of each pair, the channel that the half bit selects and no other: phase 1's for the first `on` ticks, phase 2's for
`on` ticks from `PAR_PC mod P`, wrapped; an inactive one drives none. -/
def Obligations.PhaseTwoIsPhaseOneShifted : Prop :=
  ∀ (s t : State) (now : Word) (x : Nat), PeriodInBand s → onCycle now s = .next t →
    let P : Nat := s.trk.period.toNat
    let on : Nat := min (min s.par.ca.toNat s.cfg.caMax.toNat * P / 65536) (P - s.cfg.deadMin.toNat)
    let e : EdgeSet := t.out.edgeSet
    x < P →
    (e.phase2At x ↔ e.phase1At ((x + P - e.p2Rise.toNat) % P)) ∧
    (∀ h, e.drives .one h (now + BitVec.ofNat 32 x) ↔ e.active = true ∧ h = s.wgHalf ∧ x < on) ∧
    (∀ h, e.drives .two h (now + BitVec.ofNat 32 x) ↔
      e.active = true ∧ h = s.wgHalf ∧ ((x : Int) - s.par.pc.toInt) % P < on)

/-- 41_waveform.md R142: at a CYCLE a pulse whose duration has elapsed is over before the edge set is computed; a pulse whose duration has
not elapsed goes on. Neither makes a report beside the edge timeout's. -/
def Obligations.PulseEndsAtTheFirstCycleAfterItsDuration : Prop :=
  ∀ (s : State) (now : Word), s.pul.active = true →
    (s.pul.dur.toNat ≤ (now - s.pul.start).toNat →
      ∃ t, onCycle now s = .next t ∧ t.par = { s.par with run := false } ∧ t.pul = { s.pul with active := false } ∧
        t.out.edgeSet = inhibitedEdgeSet now s.trk.period s.wgHalf) ∧
    ((now - s.pul.start).toNat < s.pul.dur.toNat → ∀ t, onCycle now s = .next t → t.par = s.par ∧ t.pul = s.pul) ∧
    ∀ t, onCycle now s = .next t → t.out.report = (timeoutCheck now s).out.report

/-- The frame of CYCLE (41_waveform.md R141). It writes PAR_RUN and PUL_ACTIVE only when a running pulse has expired, and then clears
them; tracker registers and the report only as the edge timeout does, which never touches TRK_PERIOD, TRK_HAVE, the timestamps and the
phase errors (40_pll.md R124); WG_HALF always; and nothing else but the edge set. -/
def Obligations.CyclesLeaveEverythingElseUnchanged : Prop :=
  ∀ (s t : State) (now : Word), onCycle now s = .next t →
    let expired : Prop := s.pul.active = true ∧ s.pul.dur.toNat ≤ (now - s.pul.start).toNat
    t.cfg = s.cfg ∧ t.prot = s.prot ∧ t.cp = s.cp ∧ t.inp = s.inp ∧ t.trace = s.trace ∧ t.wgHalf = !s.wgHalf ∧
    t.par.ca = s.par.ca ∧ t.par.pc = s.par.pc ∧ t.pul.start = s.pul.start ∧ t.pul.dur = s.pul.dur ∧
    (expired → t.par.run = false ∧ t.pul.active = false) ∧
    (¬ expired → t.par = s.par ∧ t.pul = s.pul) ∧
    t.trk = (timeoutCheck now s).trk ∧
    t.trk.period = s.trk.period ∧ t.trk.have1 = s.trk.have1 ∧ t.trk.perr = s.trk.perr ∧ t.trk.pacc = s.trk.pacc ∧
    t.trk.tlastFalling = s.trk.tlastFalling ∧ t.trk.tlastRising = s.trk.tlastRising ∧ t.trk.tAny = s.trk.tAny ∧
    t.out.report = (timeoutCheck now s).out.report ∧
    (t.out.report = s.out.report ∨ ∃ info, t.out.report = s.out.report ++ [⟨.trkTimeout, info⟩])

/-! ## Reset, outputs, and the whole machine -/

/-- 70_reset_and_hazards.md R250, R251: a clock with IN_RESET = 1 gives every register its reset value, whatever events it brings, and
drives no edge set and no report. -/
def Obligations.ResetClockGivesEveryRegisterItsResetValue : Prop :=
  ∀ (s : State), s.nextClock.inp.reset = true →
    ∃ t, step s = .next t ∧ t.cfg = s.cfg ∧ t.out.edgeSet.valid = false ∧ t.out.report = [] ∧
      t.trk =
        { seenFalling := false, seenRising := false, tlastFalling := 0, tlastRising := 0, anyV := false, tAny := 0, have1 := false
          period := s.cfg.periodInit, perr := 0, pacc := 0, lockCnt := 0, locked := false, faultCnt := 0 } ∧
      t.par = { ca := s.cfg.caInit, pc := s.cfg.pcInit, run := false } ∧
      t.pul = { active := false, start := 0, dur := 0 } ∧
      t.prot = { latched := false, last := 0, peak := 0, susCnt := 0, latchCnt := 0 } ∧
      t.cp =
        { state := .idle, cmd := 0, len := 0, cnt := 0, sum := 0, errCnt := 0
          buf := { b0 := 0, b1 := 0, b2 := 0, b3 := 0, b4 := 0, b5 := 0, b6 := 0, b7 := 0 } } ∧
      t.wgHalf = false

/-- 70_reset_and_hazards.md R252, R254: after reset the block is inhibited with status 0x0020, and stays so over event-free clocks; its first
CYCLE emits an inhibited edge set with the initial period and half 0. That the clocks after an empty trace are event-free is the model's
choice (log entry 4). -/
def Obligations.ResetComesOutInhibited : Prop :=
  ∀ (c : Config) (n : Nat) (now : Word),
    (∃ t, run n (State.resetWith c) = .next t ∧ t.inhibit = true ∧ t.status = 0x0020 ∧ t.out = PortOut.quiet) ∧
    (∃ t, onCycle now (State.resetWith c) = .next t ∧ t.out.edgeSet.active = false ∧ t.out.edgeSet.period = c.periodInit ∧
      t.out.edgeSet.half = false)

/-- 10_state.md R47: the bits of OUT_STATUS and the inhibit line. -/
def Obligations.StatusWordShowsTheFlags : Prop :=
  ∀ (s : State),
    s.inhibit = (s.prot.latched || !s.par.run) ∧
    s.status.getLsbD 0 = s.trk.locked ∧ s.status.getLsbD 1 = s.prot.latched ∧ s.status.getLsbD 2 = s.par.run ∧
    s.status.getLsbD 3 = s.pul.active ∧ s.status.getLsbD 4 = s.trk.have1 ∧ s.status.getLsbD 5 = s.inhibit ∧
    s.status.toNat < 64

/-- 10_state.md R50, 60_exceptions.md R235: a clock with no valid event changes no register and drives no edge set and no report. -/
def Obligations.ClockWithoutEventChangesNoState : Prop :=
  ∀ (s : State), noEvent s → ∃ t, step s = .next t ∧ t.obs = s.obs ∧ t.cfg = s.cfg ∧ t.out = PortOut.quiet

/-- 60_exceptions.md R222: a clock carries at most four reports, at most one of each handler, in the handler order. -/
def Obligations.ReportsComeAtMostOnePerHandler : Prop :=
  ∀ (s t : State), step s = .next t →
    ∃ a b c d : List Report, t.out.report = a ++ b ++ c ++ d ∧
      a.length ≤ 1 ∧ b.length ≤ 1 ∧ c.length ≤ 1 ∧ d.length ≤ 1 ∧
      (∀ r ∈ a, r.code ∈ [.safetyTripInst, .safetyTripSus]) ∧ (∀ r ∈ b, r.code = .trkRange) ∧
      (∀ r ∈ c, r.code ∈ protoCodes) ∧
      (∀ r ∈ d, r.code = .trkTimeout)

/-- 00_scope.md R11: with the parser consistent and the period in its band, as in every run, a step always answers a next state, and never a
fault or a refusal. -/
def Obligations.EveryStepAnswersANextState : Prop :=
  ∀ (s : State), ParserConsistent s → PeriodInBand s → ∃ t, step s = .next t

/-- Every invariant holds in the reset state of every configuration (10_state.md R25, R31, R32, R38; 70_reset_and_hazards.md R251). -/
def Obligations.InvariantsHoldAfterReset : Prop :=
  ∀ (c : Config),
    PeriodInBand (State.resetWith c) ∧ ParamsInRange (State.resetWith c) ∧ ParserConsistent (State.resetWith c) ∧
    MonitorConsistent (State.resetWith c) ∧ TrackerConsistent (State.resetWith c)

/-- 40_pll.md R122: every step keeps the period in the configured band. -/
def Obligations.EveryStepKeepsThePeriodInBand : Prop :=
  ∀ (s t : State), PeriodInBand s → step s = .next t → PeriodInBand t

/-- 10_state.md R31, R32: every step keeps the parameter registers in their accepted ranges. -/
def Obligations.EveryStepKeepsTheParametersInRange : Prop :=
  ∀ (s t : State), ParamsInRange s → step s = .next t → ParamsInRange t

/-- 10_state.md R38, 43_command.md R185: every step keeps the parser registers consistent with the frame received so far. -/
def Obligations.EveryStepKeepsTheParserConsistent : Prop :=
  ∀ (s t : State), ParserConsistent s → step s = .next t → ParserConsistent t

/-- Every step keeps a latched block disarmed (42_protection.md R164, R167; 43_command.md R189, R190, R194), a NORMAL block free of a
pending trip (42_protection.md R163, 93_implementation_defined.md K19), and a running pulse armed with an accepted duration (10_state.md
R34; 43_command.md R189, R190, R194; 41_waveform.md R142). -/
def Obligations.EveryStepKeepsTheMonitorConsistent : Prop :=
  ∀ (s t : State), MonitorConsistent s → step s = .next t → MonitorConsistent t

/-- 10_state.md R22 to R29: every step keeps the lock flag equal to its counter's test and the seeds' valid bits consistent. -/
def Obligations.EveryStepKeepsTheTrackerConsistent : Prop :=
  ∀ (s t : State), TrackerConsistent s → step s = .next t → TrackerConsistent t

/-- 10_state.md R31, R32, 20_memory.md R61: outside a reset clock PAR_CA and PAR_PC change only by the SET_PARAM command that names them, and
then to exactly its operand. -/
def Obligations.OnlySetParamWritesTheParameters : Prop :=
  ∀ (s t : State), step s = .next t → s.nextClock.inp.reset = false →
    (t.par.ca = s.par.ca ∨ commandOf s = some (.setParamCa t.par.ca)) ∧
    (t.par.pc = s.par.pc ∨ commandOf s = some (.setParamPc t.par.pc))

/-- 10_state.md R33, R34: PAR_RUN is set only by RUN and FIRE_PULSE, PUL_ACTIVE only by FIRE_PULSE, with the pulse starting at that
clock's `IN_NOW` for the command's duration; each only in NORMAL. -/
def Obligations.OnlyRunAndFirePulseArm : Prop :=
  (∀ (s t : State), step s = .next t → s.par.run = false → t.par.run = true →
    t.prot.latched = false ∧ s.prot.latched = false ∧
    (commandOf s = some .run ∨ ∃ d, commandOf s = some (.firePulse d) ∧ t.pul.active = true ∧ t.pul.dur = d)) ∧
  (∀ (s t : State), step s = .next t → s.pul.active = false → t.pul.active = true →
    t.prot.latched = false ∧ s.prot.latched = false ∧ t.par.run = true ∧ t.pul.start = s.nextClock.inp.now ∧
    commandOf s = some (.firePulse t.pul.dur))

/-- 40_pll.md R126, 10_state.md R27, R36: the lock flag and its counter, the phase errors, the peak and the event counters steer nothing else:
two states that differ only in them stay so, with the same edge sets and reports. -/
def Obligations.ObservedRegistersSteerNothing : Prop :=
  ∀ (s s' : State), s.eraseObservers = s'.eraseObservers →
    Result.eraseObservers (step s) = Result.eraseObservers (step s')
end

