-- ==== Sys2Proof/Laws/State.lean ====
section
/-! SUPPORT. What each named operation leaves in each field of State: one lemma per field, true by unfolding once. -/

namespace Sys2Proof.Machine

variable (s : State)

/-! ## report -/
@[simp] theorem report_cfg (code : ReportCode) (info : Word) : (report code info s).cfg = s.cfg := rfl
@[simp] theorem report_trk (code : ReportCode) (info : Word) : (report code info s).trk = s.trk := rfl
@[simp] theorem report_par (code : ReportCode) (info : Word) : (report code info s).par = s.par := rfl
@[simp] theorem report_pul (code : ReportCode) (info : Word) : (report code info s).pul = s.pul := rfl
@[simp] theorem report_prot (code : ReportCode) (info : Word) : (report code info s).prot = s.prot := rfl
@[simp] theorem report_cp (code : ReportCode) (info : Word) : (report code info s).cp = s.cp := rfl
@[simp] theorem report_wgHalf (code : ReportCode) (info : Word) : (report code info s).wgHalf = s.wgHalf := rfl
@[simp] theorem report_inp (code : ReportCode) (info : Word) : (report code info s).inp = s.inp := rfl
@[simp] theorem report_trace (code : ReportCode) (info : Word) : (report code info s).trace = s.trace := rfl
@[simp] theorem report_edgeSet (code : ReportCode) (info : Word) : (report code info s).out.edgeSet = s.out.edgeSet := rfl
@[simp] theorem report_report (code : ReportCode) (info : Word) : (report code info s).out.report = s.out.report ++ [⟨code, info⟩] := rfl

/-! ## protoError -/
@[simp] theorem protoError_cfg (code : ReportCode) (info : Word) : (protoError code info s).cfg = s.cfg := rfl
@[simp] theorem protoError_trk (code : ReportCode) (info : Word) : (protoError code info s).trk = s.trk := rfl
@[simp] theorem protoError_par (code : ReportCode) (info : Word) : (protoError code info s).par = s.par := rfl
@[simp] theorem protoError_pul (code : ReportCode) (info : Word) : (protoError code info s).pul = s.pul := rfl
@[simp] theorem protoError_prot (code : ReportCode) (info : Word) : (protoError code info s).prot = s.prot := rfl
@[simp] theorem protoError_wgHalf (code : ReportCode) (info : Word) : (protoError code info s).wgHalf = s.wgHalf := rfl
@[simp] theorem protoError_inp (code : ReportCode) (info : Word) : (protoError code info s).inp = s.inp := rfl
@[simp] theorem protoError_trace (code : ReportCode) (info : Word) : (protoError code info s).trace = s.trace := rfl
@[simp] theorem protoError_cp (code : ReportCode) (info : Word) : (protoError code info s).cp = { s.cp with errCnt := satInc s.cp.errCnt } := rfl
@[simp] theorem protoError_edgeSet (code : ReportCode) (info : Word) : (protoError code info s).out.edgeSet = s.out.edgeSet := rfl
@[simp] theorem protoError_report (code : ReportCode) (info : Word) : (protoError code info s).out.report = s.out.report ++ [⟨code, info⟩] := rfl

/-! ## latchEntry -/
@[simp] theorem latchEntry_cfg (code : ReportCode) (x : Half) : (latchEntry code x s).cfg = s.cfg := rfl
@[simp] theorem latchEntry_trk (code : ReportCode) (x : Half) : (latchEntry code x s).trk = s.trk := rfl
@[simp] theorem latchEntry_cp (code : ReportCode) (x : Half) : (latchEntry code x s).cp = s.cp := rfl
@[simp] theorem latchEntry_wgHalf (code : ReportCode) (x : Half) : (latchEntry code x s).wgHalf = s.wgHalf := rfl
@[simp] theorem latchEntry_inp (code : ReportCode) (x : Half) : (latchEntry code x s).inp = s.inp := rfl
@[simp] theorem latchEntry_trace (code : ReportCode) (x : Half) : (latchEntry code x s).trace = s.trace := rfl
@[simp] theorem latchEntry_par (code : ReportCode) (x : Half) : (latchEntry code x s).par = { s.par with run := false } := rfl
@[simp] theorem latchEntry_pul (code : ReportCode) (x : Half) : (latchEntry code x s).pul = { s.pul with active := false } := rfl
@[simp] theorem latchEntry_prot (code : ReportCode) (x : Half) : (latchEntry code x s).prot = { s.prot with latched := true, latchCnt := satInc s.prot.latchCnt } := rfl
@[simp] theorem latchEntry_edgeSet (code : ReportCode) (x : Half) : (latchEntry code x s).out.edgeSet = s.out.edgeSet := rfl
@[simp] theorem latchEntry_report (code : ReportCode) (x : Half) : (latchEntry code x s).out.report = s.out.report ++ [⟨code, zextHalf x⟩] := rfl

/-! ## advanceParser -/
@[simp] theorem advanceParser_cfg (b : Byte) : (s.advanceParser b).cfg = s.cfg := rfl
@[simp] theorem advanceParser_trk (b : Byte) : (s.advanceParser b).trk = s.trk := rfl
@[simp] theorem advanceParser_par (b : Byte) : (s.advanceParser b).par = s.par := rfl
@[simp] theorem advanceParser_pul (b : Byte) : (s.advanceParser b).pul = s.pul := rfl
@[simp] theorem advanceParser_prot (b : Byte) : (s.advanceParser b).prot = s.prot := rfl
@[simp] theorem advanceParser_wgHalf (b : Byte) : (s.advanceParser b).wgHalf = s.wgHalf := rfl
@[simp] theorem advanceParser_inp (b : Byte) : (s.advanceParser b).inp = s.inp := rfl
@[simp] theorem advanceParser_trace (b : Byte) : (s.advanceParser b).trace = s.trace := rfl
@[simp] theorem advanceParser_cp (b : Byte) : (s.advanceParser b).cp = s.cp.advance b := rfl
@[simp] theorem advanceParser_out (b : Byte) : (s.advanceParser b).out = s.out := rfl

/-! ## resetRegisters -/
@[simp] theorem resetRegisters_cfg : (s.resetRegisters).cfg = s.cfg := rfl
@[simp] theorem resetRegisters_inp : (s.resetRegisters).inp = s.inp := rfl
@[simp] theorem resetRegisters_trace : (s.resetRegisters).trace = s.trace := rfl
@[simp] theorem resetRegisters_trk : (s.resetRegisters).trk = Tracker.reset s.cfg := rfl
@[simp] theorem resetRegisters_par : (s.resetRegisters).par = Params.reset s.cfg := rfl
@[simp] theorem resetRegisters_pul : (s.resetRegisters).pul = Pulse.reset := rfl
@[simp] theorem resetRegisters_prot : (s.resetRegisters).prot = Monitor.reset := rfl
@[simp] theorem resetRegisters_cp : (s.resetRegisters).cp = Parser.reset := rfl
@[simp] theorem resetRegisters_wgHalf : (s.resetRegisters).wgHalf = false := rfl
@[simp] theorem resetRegisters_out : (s.resetRegisters).out = s.out := rfl

/-! ## recordSample -/
@[simp] theorem recordSample_cfg (x : Half) : (recordSample x s).cfg = s.cfg := rfl
@[simp] theorem recordSample_trk (x : Half) : (recordSample x s).trk = s.trk := rfl
@[simp] theorem recordSample_par (x : Half) : (recordSample x s).par = s.par := rfl
@[simp] theorem recordSample_pul (x : Half) : (recordSample x s).pul = s.pul := rfl
@[simp] theorem recordSample_cp (x : Half) : (recordSample x s).cp = s.cp := rfl
@[simp] theorem recordSample_wgHalf (x : Half) : (recordSample x s).wgHalf = s.wgHalf := rfl
@[simp] theorem recordSample_inp (x : Half) : (recordSample x s).inp = s.inp := rfl
@[simp] theorem recordSample_trace (x : Half) : (recordSample x s).trace = s.trace := rfl
@[simp] theorem recordSample_last (x : Half) : (recordSample x s).prot.last = x := rfl
@[simp] theorem recordSample_latched (x : Half) : (recordSample x s).prot.latched = s.prot.latched := rfl
@[simp] theorem recordSample_latchCnt (x : Half) : (recordSample x s).prot.latchCnt = s.prot.latchCnt := rfl
@[simp] theorem recordSample_out (x : Half) : (recordSample x s).out = s.out := rfl

/-! ## edgeTimeout -/
@[simp] theorem edgeTimeout_cfg (el : Word) : (edgeTimeout el s).cfg = s.cfg := rfl
@[simp] theorem edgeTimeout_par (el : Word) : (edgeTimeout el s).par = s.par := rfl
@[simp] theorem edgeTimeout_pul (el : Word) : (edgeTimeout el s).pul = s.pul := rfl
@[simp] theorem edgeTimeout_prot (el : Word) : (edgeTimeout el s).prot = s.prot := rfl
@[simp] theorem edgeTimeout_cp (el : Word) : (edgeTimeout el s).cp = s.cp := rfl
@[simp] theorem edgeTimeout_wgHalf (el : Word) : (edgeTimeout el s).wgHalf = s.wgHalf := rfl
@[simp] theorem edgeTimeout_inp (el : Word) : (edgeTimeout el s).inp = s.inp := rfl
@[simp] theorem edgeTimeout_trace (el : Word) : (edgeTimeout el s).trace = s.trace := rfl
@[simp] theorem edgeTimeout_trk (el : Word) : (edgeTimeout el s).trk = { trackingFault s.trk with seenFalling := false, seenRising := false, anyV := false } := rfl
@[simp] theorem edgeTimeout_edgeSet (el : Word) : (edgeTimeout el s).out.edgeSet = s.out.edgeSet := rfl
@[simp] theorem edgeTimeout_report (el : Word) : (edgeTimeout el s).out.report = s.out.report ++ [⟨.trkTimeout, el⟩] := rfl

/-! ## emitEdgeSet -/
@[simp] theorem emitEdgeSet_cfg (now : Word) : (emitEdgeSet now s).cfg = s.cfg := rfl
@[simp] theorem emitEdgeSet_trk (now : Word) : (emitEdgeSet now s).trk = s.trk := rfl
@[simp] theorem emitEdgeSet_par (now : Word) : (emitEdgeSet now s).par = s.par := rfl
@[simp] theorem emitEdgeSet_pul (now : Word) : (emitEdgeSet now s).pul = s.pul := rfl
@[simp] theorem emitEdgeSet_prot (now : Word) : (emitEdgeSet now s).prot = s.prot := rfl
@[simp] theorem emitEdgeSet_cp (now : Word) : (emitEdgeSet now s).cp = s.cp := rfl
@[simp] theorem emitEdgeSet_inp (now : Word) : (emitEdgeSet now s).inp = s.inp := rfl
@[simp] theorem emitEdgeSet_trace (now : Word) : (emitEdgeSet now s).trace = s.trace := rfl
@[simp] theorem emitEdgeSet_wgHalf (now : Word) : (emitEdgeSet now s).wgHalf = !s.wgHalf := rfl
@[simp] theorem emitEdgeSet_edgeSet (now : Word) : (emitEdgeSet now s).out.edgeSet = nextEdgeSet now s := rfl
@[simp] theorem emitEdgeSet_report (now : Word) : (emitEdgeSet now s).out.report = s.out.report := rfl

/-! ## nextClock -/
@[simp] theorem nextClock_cfg : s.nextClock.cfg = s.cfg := by unfold State.nextClock; split <;> rfl
@[simp] theorem nextClock_trk : s.nextClock.trk = s.trk := by unfold State.nextClock; split <;> rfl
@[simp] theorem nextClock_par : s.nextClock.par = s.par := by unfold State.nextClock; split <;> rfl
@[simp] theorem nextClock_pul : s.nextClock.pul = s.pul := by unfold State.nextClock; split <;> rfl
@[simp] theorem nextClock_prot : s.nextClock.prot = s.prot := by unfold State.nextClock; split <;> rfl
@[simp] theorem nextClock_cp : s.nextClock.cp = s.cp := by unfold State.nextClock; split <;> rfl
@[simp] theorem nextClock_wgHalf : s.nextClock.wgHalf = s.wgHalf := by unfold State.nextClock; split <;> rfl
@[simp] theorem nextClock_out : s.nextClock.out = PortOut.quiet := by unfold State.nextClock; split <;> rfl
theorem nextClock_cons {i : PortIn} {rest : List PortIn} (h : s.trace = i :: rest) :
    s.nextClock = { s with inp := i, out := .quiet, trace := rest } := by unfold State.nextClock; rw [h]

/-! ## Parser, tracker -/

@[simp] theorem advance_errCnt (b : Byte) (p : Parser) : (p.advance b).errCnt = p.errCnt := by
  unfold Parser.advance; split <;> (try split) <;> rfl

@[simp] theorem seed_period (p : Polarity) (ts : Word) (t : Tracker) : (t.seed p ts).period = t.period := by cases p <;> rfl
@[simp] theorem seed_have1 (p : Polarity) (ts : Word) (t : Tracker) : (t.seed p ts).have1 = t.have1 := by cases p <;> rfl
@[simp] theorem seed_perr (p : Polarity) (ts : Word) (t : Tracker) : (t.seed p ts).perr = t.perr := by cases p <;> rfl
@[simp] theorem seed_pacc (p : Polarity) (ts : Word) (t : Tracker) : (t.seed p ts).pacc = t.pacc := by cases p <;> rfl
@[simp] theorem seed_lockCnt (p : Polarity) (ts : Word) (t : Tracker) : (t.seed p ts).lockCnt = t.lockCnt := by cases p <;> rfl
@[simp] theorem seed_locked (p : Polarity) (ts : Word) (t : Tracker) : (t.seed p ts).locked = t.locked := by cases p <;> rfl
@[simp] theorem seed_faultCnt (p : Polarity) (ts : Word) (t : Tracker) : (t.seed p ts).faultCnt = t.faultCnt := by
  cases p <;> rfl

@[simp] theorem trackingFault_seenFalling (t : Tracker) : (trackingFault t).seenFalling = t.seenFalling := rfl
@[simp] theorem trackingFault_seenRising (t : Tracker) : (trackingFault t).seenRising = t.seenRising := rfl
@[simp] theorem trackingFault_tlastFalling (t : Tracker) : (trackingFault t).tlastFalling = t.tlastFalling := rfl
@[simp] theorem trackingFault_tlastRising (t : Tracker) : (trackingFault t).tlastRising = t.tlastRising := rfl
@[simp] theorem trackingFault_anyV (t : Tracker) : (trackingFault t).anyV = t.anyV := rfl
@[simp] theorem trackingFault_tAny (t : Tracker) : (trackingFault t).tAny = t.tAny := rfl
@[simp] theorem trackingFault_have1 (t : Tracker) : (trackingFault t).have1 = t.have1 := rfl
@[simp] theorem trackingFault_period (t : Tracker) : (trackingFault t).period = t.period := rfl
@[simp] theorem trackingFault_perr (t : Tracker) : (trackingFault t).perr = t.perr := rfl
@[simp] theorem trackingFault_pacc (t : Tracker) : (trackingFault t).pacc = t.pacc := rfl
@[simp] theorem trackingFault_lockCnt (t : Tracker) : (trackingFault t).lockCnt = 0 := rfl
@[simp] theorem trackingFault_locked (t : Tracker) : (trackingFault t).locked = false := rfl
@[simp] theorem trackingFault_faultCnt (t : Tracker) : (trackingFault t).faultCnt = satInc t.faultCnt := rfl

end Sys2Proof.Machine
end

