-- ==== Sys2Proof/Laws/Arith.lean ====
section
/-! SUPPORT. What the arithmetic operators of Machine/Arith.lean compute, as numbers; and what a well-formed configuration says. -/

namespace Sys2Proof.Machine

theorem satInc_toNat {n : Nat} (c : BitVec n) : (satInc c).toNat = min (c.toNat + 1) (2 ^ n - 1) := by
  unfold satInc
  have := Nat.two_pow_pos n
  rw [BitVec.toNat_ofNat, Nat.mod_eq_of_lt]
  omega

theorem ofInt32_toNat {x : Int} (h0 : 0 ≤ x) (h1 : x < 2 ^ 32) : ((BitVec.ofInt 32 x).toNat : Int) = x := by
  rw [BitVec.toNat_ofInt]; omega

theorem ofInt32_toInt {x : Int} (h0 : -2 ^ 31 ≤ x) (h1 : x < 2 ^ 31) : (BitVec.ofInt 32 x).toInt = x := by
  rw [BitVec.toInt_ofInt, Int.bmod_def]; omega

theorem satAddS32_toInt (a e : Word) :
    (satAddS32 a e).toInt = min (max (a.toInt + e.toInt) (-2 ^ 31)) (2 ^ 31 - 1) := by
  unfold satAddS32 clamp
  rw [ofInt32_toInt] <;> omega

theorem floorMod_eq (x p : Int) : floorMod x p = x % p := by
  unfold floorMod
  have := Int.emod_add_mul_ediv x p
  omega

/-- `floor(x / 2^k)` lies between 0 and `x`, on either side of 0. -/
theorem asr_between (x : Int) (k : Nat) : min x 0 ≤ asr x k ∧ asr x k ≤ max x 0 := by
  unfold asr
  have hp : (1 : Int) ≤ 2 ^ k := by exact_mod_cast Nat.one_le_two_pow
  constructor
  · rcases le_total 0 x with h | h
    · have := Int.ediv_nonneg h (by omega : (0 : Int) ≤ 2 ^ k); omega
    · have : x ≤ x / 2 ^ k := by
        rw [Int.le_ediv_iff_mul_le (by omega)]
        nlinarith
      omega
  · rcases le_total 0 x with h | h
    · have := Int.ediv_le_self (2 ^ k) h; omega
    · have : x / 2 ^ k ≤ 0 := by simpa using Int.ediv_le_ediv (by omega : (0 : Int) < 2 ^ k) h
      omega

/-- The constraints of 00_scope.md R5 on the periods, as numbers. -/
theorem config_periods (c : Config) :
    1 ≤ c.deadMin.toNat ∧ c.deadMin.toNat < c.periodMin.toNat ∧ c.periodMin.toNat ≤ c.periodInit.toNat ∧
    c.periodInit.toNat ≤ c.periodMax.toNat ∧ c.periodMax.toNat ≤ 2 ^ 31 - 1 := by
  have h := c.ok
  simp only [RawConfig.wf, RawConfig.periodsWf, Bool.and_eq_true, decide_eq_true_eq] at h
  exact ⟨h.1.1.1.1.1.1, h.1.1.1.1.1.2, h.1.1.1.1.2, h.1.1.1.2, h.1.1.2⟩

/-- The legal values of R4 for the parameter fields, as numbers. -/
theorem config_params (c : Config) :
    2 ≤ c.caMax.toNat ∧ 1 ≤ c.caInit.toNat ∧ c.caInit.toNat < c.caMax.toNat ∧
    c.pcMin.toInt ≤ c.pcInit.toInt ∧ c.pcInit.toInt ≤ c.pcMax.toInt := by
  have h := c.ok
  simp only [RawConfig.wf, RawConfig.paramsWf, Bool.and_eq_true, decide_eq_true_eq] at h
  exact ⟨h.1.2.1.1.1.1, h.1.2.1.1.1.2, h.1.2.1.1.2, h.1.2.1.2, h.1.2.2⟩

/-- The legal values of R4 for the thresholds and counts, as numbers. -/
theorem config_limits (c : Config) :
    1 ≤ c.lockCount.toNat ∧ c.tripSus.toNat ≤ c.tripInst.toNat ∧ 1 ≤ c.susCount.toNat ∧ 1 ≤ c.fireMax.toNat := by
  have h := c.ok
  simp only [RawConfig.wf, RawConfig.limitsWf, Bool.and_eq_true, decide_eq_true_eq] at h
  exact ⟨h.2.1.1.1, h.2.1.1.2, h.2.1.2, h.2.2⟩

theorem clampRaw_toNat (c : Config) (raw : Word) :
    (clampRaw c.toRawConfig raw).toNat = min (max raw.toNat c.periodMin.toNat) c.periodMax.toNat := by
  have h := config_periods c
  have : ((clampRaw c.toRawConfig raw).toNat : Int) = min (max (raw.toNat : Int) c.periodMin.toNat) c.periodMax.toNat := by
    unfold clampRaw clamp
    rw [ofInt32_toNat] <;> omega
  omega

/-- A raw measurement is unclamped exactly when it lies in the band (40_pll.md R119). -/
theorem clampRaw_eq_iff (c : Config) (raw : Word) :
    clampRaw c.toRawConfig raw = raw ↔ c.periodMin.toNat ≤ raw.toNat ∧ raw.toNat ≤ c.periodMax.toNat := by
  have h := config_periods c
  rw [← BitVec.toNat_inj, clampRaw_toNat]
  omega

/-- The filtered period, as a number, when both terms lie below 2^31 (40_pll.md R116). -/
theorem filterPeriod_toNat (c : RawConfig) (rawc p : Word) (hr : rawc.toNat < 2 ^ 31) (hp : p.toNat < 2 ^ 31) :
    ((filterPeriod c rawc p).toNat : Int) = p.toNat + asr ((rawc.toNat : Int) - p.toNat) c.filterShift.toNat := by
  have h := asr_between ((rawc.toNat : Int) - p.toNat) c.filterShift.toNat
  unfold filterPeriod
  rw [ofInt32_toNat] <;> omega

end Sys2Proof.Machine
end

