-- ==== Sys2Proof/Laws/Decode.lean ====
section
/-! SUPPORT. What the byte-order helpers compute, how `decode` answers on a whole frame, and which fields each command comes from. -/

namespace Sys2Proof

theorem le16_toNat (lo hi : Byte) : (le16 lo hi).toNat = hi.toNat * 256 + lo.toNat := by
  have append : (hi ++ lo).toNat = (hi.toNat <<< 8) ||| lo.toNat := BitVec.toNat_append _ _
  have add := Nat.two_pow_add_eq_or_of_lt (b := lo.toNat) (i := 8) lo.isLt hi.toNat
  unfold le16
  rw [append, Nat.shiftLeft_eq, Nat.mul_comm _ (2 ^ 8)]
  omega

theorem loByte_toNat (v : Half) : (loByte v).toNat = v.toNat % 256 := by
  simp [loByte, BitVec.extractLsb'_toNat]

theorem hiByte_toNat (v : Half) : (hiByte v).toNat = v.toNat / 256 := by
  simp [hiByte, BitVec.extractLsb'_toNat, Nat.shiftRight_eq_div_pow]
  omega

theorem le16_loByte_hiByte (v : Half) : le16 (loByte v) (hiByte v) = v := by
  rw [← BitVec.toNat_inj, le16_toNat, loByte_toNat, hiByte_toNat]
  omega

theorem loByte_le16 (lo hi : Byte) : loByte (le16 lo hi) = lo := by
  rw [← BitVec.toNat_inj, loByte_toNat, le16_toNat]
  omega

theorem hiByte_le16 (lo hi : Byte) : hiByte (le16 lo hi) = hi := by
  rw [← BitVec.toNat_inj, hiByte_toNat, le16_toNat]
  omega

/-- `decode` on the bytes of a frame whose LEN counts its payload: the checksum test, then the command. -/
theorem decode_frame (cmd len chk : Byte) (pay tail : List Byte) (hlen : pay.length = len.toNat) (h8 : len.toNat ≤ 8) :
    decode (sofByte :: cmd :: len :: (pay ++ chk :: tail)) =
      if chk = checksum cmd len pay then
        (decodeCommand cmd len (pay.getD 0 0) (pay.getD 1 0) (pay.getD 2 0)).map fun i => (i, tail)
      else .error (.checksum chk) := by
  simp only [decode, if_true, maxPayload, show ¬ 8 < len.toNat by omega, if_false, decodeBody]
  rw [← hlen, List.drop_left, List.take_left]
  simp only
  cases decodeCommand cmd len (pay.getD 0 0) (pay.getD 1 0) (pay.getD 2 0) <;> rfl

/-- The fields that each command comes from, and no other. -/
theorem decodeCommand_eq_ok {cmd len p0 p1 p2 : Byte} {i : Instr} (h : decodeCommand cmd len p0 p1 p2 = .ok i) :
    (cmd = 1#8 ∧ len = 0#8 ∧ i = .run) ∨ (cmd = 2#8 ∧ len = 0#8 ∧ i = .stop) ∨
    (cmd = 3#8 ∧ len = 3#8 ∧ p0 = 0#8 ∧ i = .setParamCa (le16 p1 p2)) ∨
    (cmd = 3#8 ∧ len = 3#8 ∧ p0 = 1#8 ∧ i = .setParamPc (le16 p1 p2)) ∨
    (cmd = 4#8 ∧ len = 2#8 ∧ i = .firePulse (le16 p0 p1)) ∨
    (cmd = 5#8 ∧ len = 0#8 ∧ i = .resetFault) := by
  unfold decodeCommand at h
  repeat' (split at h)
  all_goals simp_all

/-- A payload byte past LEN is never interpreted (30_encoding.md R92). -/
theorem decodeCommand_congr {cmd len p0 p1 p2 q0 q1 q2 : Byte} (h3 : len = 3#8 → p0 = q0 ∧ p1 = q1 ∧ p2 = q2)
    (h2 : len = 2#8 → p0 = q0 ∧ p1 = q1) : decodeCommand cmd len p0 p1 p2 = decodeCommand cmd len q0 q1 q2 := by
  unfold decodeCommand
  by_cases a : len = 3#8
  · obtain ⟨rfl, rfl, rfl⟩ := h3 a; rfl
  · by_cases b : len = 2#8
    · obtain ⟨rfl, rfl⟩ := h2 b; simp only [if_neg a]
    · simp only [if_neg a, if_neg b]

end Sys2Proof
end

