-- ==== Sys2Proof/Laws/Handlers.lean ====
section
/-! SUPPORT. What each handler can do, said once: which fields it never touches, and in which cases it ends. -/

namespace Sys2Proof.Machine

variable (s : State)

/-! ## SAMPLE (42_protection.md) -/

/-- The three ways a SAMPLE ends: recorded only, or recorded and latched with one of the two causes. -/
theorem onSample_cases (x : Half) :
    (onSample x s = recordSample x s ∧
      (s.prot.latched = true ∨
        (tripsInst s.cfg.toRawConfig x = false ∧ tripsSus s.cfg.toRawConfig (recordSample x s).prot.susCnt = false))) ∨
    (s.prot.latched = false ∧
      ((tripsInst s.cfg.toRawConfig x = true ∧ onSample x s = latchEntry .safetyTripInst x (recordSample x s)) ∨
       (tripsInst s.cfg.toRawConfig x = false ∧ tripsSus s.cfg.toRawConfig (recordSample x s).prot.susCnt = true ∧
        onSample x s = latchEntry .safetyTripSus x (recordSample x s)))) := by
  simp only [onSample, recordSample_latched, recordSample_cfg]
  by_cases h : s.prot.latched = true <;> by_cases h1 : tripsInst s.cfg.toRawConfig x = true <;>
    by_cases h2 : tripsSus s.cfg.toRawConfig (recordSample x s).prot.susCnt = true <;> simp [h, h1, h2]

@[simp] theorem onSample_cfg (x : Half) : (onSample x s).cfg = s.cfg := by
  rcases onSample_cases s x with ⟨h, -⟩ | ⟨-, ⟨-, h⟩ | ⟨-, -, h⟩⟩ <;> simp [h]

@[simp] theorem onSample_trk (x : Half) : (onSample x s).trk = s.trk := by
  rcases onSample_cases s x with ⟨h, -⟩ | ⟨-, ⟨-, h⟩ | ⟨-, -, h⟩⟩ <;> simp [h]

@[simp] theorem onSample_cp (x : Half) : (onSample x s).cp = s.cp := by
  rcases onSample_cases s x with ⟨h, -⟩ | ⟨-, ⟨-, h⟩ | ⟨-, -, h⟩⟩ <;> simp [h]

@[simp] theorem onSample_wgHalf (x : Half) : (onSample x s).wgHalf = s.wgHalf := by
  rcases onSample_cases s x with ⟨h, -⟩ | ⟨-, ⟨-, h⟩ | ⟨-, -, h⟩⟩ <;> simp [h]

@[simp] theorem onSample_inp (x : Half) : (onSample x s).inp = s.inp := by
  rcases onSample_cases s x with ⟨h, -⟩ | ⟨-, ⟨-, h⟩ | ⟨-, -, h⟩⟩ <;> simp [h]

@[simp] theorem onSample_trace (x : Half) : (onSample x s).trace = s.trace := by
  rcases onSample_cases s x with ⟨h, -⟩ | ⟨-, ⟨-, h⟩ | ⟨-, -, h⟩⟩ <;> simp [h]

@[simp] theorem onSample_ca (x : Half) : (onSample x s).par.ca = s.par.ca := by
  rcases onSample_cases s x with ⟨h, -⟩ | ⟨-, ⟨-, h⟩ | ⟨-, -, h⟩⟩ <;> simp [h]

@[simp] theorem onSample_pc (x : Half) : (onSample x s).par.pc = s.par.pc := by
  rcases onSample_cases s x with ⟨h, -⟩ | ⟨-, ⟨-, h⟩ | ⟨-, -, h⟩⟩ <;> simp [h]

@[simp] theorem onSample_start (x : Half) : (onSample x s).pul.start = s.pul.start := by
  rcases onSample_cases s x with ⟨h, -⟩ | ⟨-, ⟨-, h⟩ | ⟨-, -, h⟩⟩ <;> simp [h]

@[simp] theorem onSample_dur (x : Half) : (onSample x s).pul.dur = s.pul.dur := by
  rcases onSample_cases s x with ⟨h, -⟩ | ⟨-, ⟨-, h⟩ | ⟨-, -, h⟩⟩ <;> simp [h]

@[simp] theorem onSample_edgeSet (x : Half) : (onSample x s).out.edgeSet = s.out.edgeSet := by
  rcases onSample_cases s x with ⟨h, -⟩ | ⟨-, ⟨-, h⟩ | ⟨-, -, h⟩⟩ <;> simp [h]

@[simp] theorem onSample_last (x : Half) : (onSample x s).prot.last = x := by
  rcases onSample_cases s x with ⟨h, -⟩ | ⟨-, ⟨-, h⟩ | ⟨-, -, h⟩⟩ <;> simp [h]

@[simp] theorem onSample_susCnt (x : Half) : (onSample x s).prot.susCnt = (recordSample x s).prot.susCnt := by
  rcases onSample_cases s x with ⟨h, -⟩ | ⟨-, ⟨-, h⟩ | ⟨-, -, h⟩⟩ <;> simp [h]

@[simp] theorem onSample_peak (x : Half) : (onSample x s).prot.peak = (recordSample x s).prot.peak := by
  rcases onSample_cases s x with ⟨h, -⟩ | ⟨-, ⟨-, h⟩ | ⟨-, -, h⟩⟩ <;> simp [h]

/-- A latched monitor stays latched and disarms nothing more. -/
theorem onSample_of_latched {x : Half} (h : s.prot.latched = true) : onSample x s = recordSample x s := by
  rcases onSample_cases s x with ⟨h', -⟩ | ⟨h', -⟩
  · exact h'
  · simp [h] at h'

/-! ## EDGE (40_pll.md) -/

/-- The two ways a measurement ends: inside the band, or clamped with a range fault. -/
theorem onMeasurement_cases (ts ref : Word) :
    let raw := rawHalfPeriod s.cfg.edgeMode ts ref
    let trk := measureEdge s.cfg.toRawConfig ts ref s.trk
    (clampRaw s.cfg.toRawConfig raw = raw ∧ onMeasurement ts ref s = { s with trk := trk }) ∨
    (clampRaw s.cfg.toRawConfig raw ≠ raw ∧
      onMeasurement ts ref s = report .trkRange raw { s with trk := trackingFault trk }) := by
  simp only [onMeasurement]
  split <;> simp_all

/-- The two ways an EDGE ends: seeds only, or a measurement and then the seeds. -/
theorem onEdge_cases (ts : Word) (pol : Polarity) :
    (s.trk.refEdge s.cfg.edgeMode pol = none ∧ onEdge ts pol s = { s with trk := s.trk.seed pol ts }) ∨
    (∃ ref, s.trk.refEdge s.cfg.edgeMode pol = some ref ∧
      onEdge ts pol s =
        { onMeasurement ts ref s with trk := (onMeasurement ts ref s).trk.seed pol ts }) := by
  unfold onEdge
  cases h : s.trk.refEdge s.cfg.edgeMode pol with
  | none => left; simp
  | some ref => right; exact ⟨ref, rfl, rfl⟩

theorem onEdge_of_ref {ts ref : Word} {pol : Polarity} (h : s.trk.refEdge s.cfg.edgeMode pol = some ref) :
    onEdge ts pol s = { onMeasurement ts ref s with trk := (onMeasurement ts ref s).trk.seed pol ts } := by
  unfold onEdge
  rw [h]

@[simp] theorem onMeasurement_cfg (ts ref : Word) : (onMeasurement ts ref s).cfg = s.cfg := by
  rcases onMeasurement_cases s ts ref with ⟨-, h⟩ | ⟨-, h⟩ <;> simp [h]

@[simp] theorem onEdge_cfg (ts : Word) (pol : Polarity) : (onEdge ts pol s).cfg = s.cfg := by
  rcases onEdge_cases s ts pol with ⟨-, h⟩ | ⟨ref, -, h⟩ <;> simp [h]

@[simp] theorem onMeasurement_par (ts ref : Word) : (onMeasurement ts ref s).par = s.par := by
  rcases onMeasurement_cases s ts ref with ⟨-, h⟩ | ⟨-, h⟩ <;> simp [h]

@[simp] theorem onEdge_par (ts : Word) (pol : Polarity) : (onEdge ts pol s).par = s.par := by
  rcases onEdge_cases s ts pol with ⟨-, h⟩ | ⟨ref, -, h⟩ <;> simp [h]

@[simp] theorem onMeasurement_pul (ts ref : Word) : (onMeasurement ts ref s).pul = s.pul := by
  rcases onMeasurement_cases s ts ref with ⟨-, h⟩ | ⟨-, h⟩ <;> simp [h]

@[simp] theorem onEdge_pul (ts : Word) (pol : Polarity) : (onEdge ts pol s).pul = s.pul := by
  rcases onEdge_cases s ts pol with ⟨-, h⟩ | ⟨ref, -, h⟩ <;> simp [h]

@[simp] theorem onMeasurement_prot (ts ref : Word) : (onMeasurement ts ref s).prot = s.prot := by
  rcases onMeasurement_cases s ts ref with ⟨-, h⟩ | ⟨-, h⟩ <;> simp [h]

@[simp] theorem onEdge_prot (ts : Word) (pol : Polarity) : (onEdge ts pol s).prot = s.prot := by
  rcases onEdge_cases s ts pol with ⟨-, h⟩ | ⟨ref, -, h⟩ <;> simp [h]

@[simp] theorem onMeasurement_cp (ts ref : Word) : (onMeasurement ts ref s).cp = s.cp := by
  rcases onMeasurement_cases s ts ref with ⟨-, h⟩ | ⟨-, h⟩ <;> simp [h]

@[simp] theorem onEdge_cp (ts : Word) (pol : Polarity) : (onEdge ts pol s).cp = s.cp := by
  rcases onEdge_cases s ts pol with ⟨-, h⟩ | ⟨ref, -, h⟩ <;> simp [h]

@[simp] theorem onMeasurement_wgHalf (ts ref : Word) : (onMeasurement ts ref s).wgHalf = s.wgHalf := by
  rcases onMeasurement_cases s ts ref with ⟨-, h⟩ | ⟨-, h⟩ <;> simp [h]

@[simp] theorem onEdge_wgHalf (ts : Word) (pol : Polarity) : (onEdge ts pol s).wgHalf = s.wgHalf := by
  rcases onEdge_cases s ts pol with ⟨-, h⟩ | ⟨ref, -, h⟩ <;> simp [h]

@[simp] theorem onMeasurement_inp (ts ref : Word) : (onMeasurement ts ref s).inp = s.inp := by
  rcases onMeasurement_cases s ts ref with ⟨-, h⟩ | ⟨-, h⟩ <;> simp [h]

@[simp] theorem onEdge_inp (ts : Word) (pol : Polarity) : (onEdge ts pol s).inp = s.inp := by
  rcases onEdge_cases s ts pol with ⟨-, h⟩ | ⟨ref, -, h⟩ <;> simp [h]

@[simp] theorem onMeasurement_trace (ts ref : Word) : (onMeasurement ts ref s).trace = s.trace := by
  rcases onMeasurement_cases s ts ref with ⟨-, h⟩ | ⟨-, h⟩ <;> simp [h]

@[simp] theorem onEdge_trace (ts : Word) (pol : Polarity) : (onEdge ts pol s).trace = s.trace := by
  rcases onEdge_cases s ts pol with ⟨-, h⟩ | ⟨ref, -, h⟩ <;> simp [h]

@[simp] theorem onMeasurement_edgeSet (ts ref : Word) : (onMeasurement ts ref s).out.edgeSet = s.out.edgeSet := by
  rcases onMeasurement_cases s ts ref with ⟨-, h⟩ | ⟨-, h⟩ <;> simp [h]

@[simp] theorem onEdge_edgeSet (ts : Word) (pol : Polarity) : (onEdge ts pol s).out.edgeSet = s.out.edgeSet := by
  rcases onEdge_cases s ts pol with ⟨-, h⟩ | ⟨ref, -, h⟩ <;> simp [h]

/-! ## CYCLE (41_waveform.md) -/

theorem timeoutCheck_cases (now : Word) :
    (s.trk.anyV = true ∧ 2 * s.trk.period.toNat < (now - s.trk.tAny).toNat ∧
      timeoutCheck now s = edgeTimeout (now - s.trk.tAny) s) ∨
    ((s.trk.anyV = false ∨ (now - s.trk.tAny).toNat ≤ 2 * s.trk.period.toNat) ∧ timeoutCheck now s = s) := by
  unfold timeoutCheck
  split
  · rename_i h; left; exact ⟨h.1, h.2, rfl⟩
  · rename_i h; right
    refine ⟨?_, rfl⟩
    cases hv : s.trk.anyV
    · simp
    · right; by_contra hc; exact h ⟨hv, by omega⟩

theorem pulseExpiry_cases (now : Word) :
    (s.pul.active = true ∧ s.pul.dur.toNat ≤ (now - s.pul.start).toNat ∧
      pulseExpiry now s = { s with par.run := false, pul.active := false }) ∨
    ((s.pul.active = false ∨ (now - s.pul.start).toNat < s.pul.dur.toNat) ∧ pulseExpiry now s = s) := by
  unfold pulseExpiry
  split
  · rename_i h; left; exact ⟨h.1, h.2, rfl⟩
  · rename_i h; right
    refine ⟨?_, rfl⟩
    cases hv : s.pul.active
    · simp
    · right; by_contra hc; exact h ⟨hv, by omega⟩

@[simp] theorem timeoutCheck_cfg (now : Word) : (timeoutCheck now s).cfg = s.cfg := by
  rcases timeoutCheck_cases s now with ⟨-, -, h⟩ | ⟨-, h⟩ <;> simp [h]

@[simp] theorem timeoutCheck_par (now : Word) : (timeoutCheck now s).par = s.par := by
  rcases timeoutCheck_cases s now with ⟨-, -, h⟩ | ⟨-, h⟩ <;> simp [h]

@[simp] theorem timeoutCheck_pul (now : Word) : (timeoutCheck now s).pul = s.pul := by
  rcases timeoutCheck_cases s now with ⟨-, -, h⟩ | ⟨-, h⟩ <;> simp [h]

@[simp] theorem timeoutCheck_prot (now : Word) : (timeoutCheck now s).prot = s.prot := by
  rcases timeoutCheck_cases s now with ⟨-, -, h⟩ | ⟨-, h⟩ <;> simp [h]

@[simp] theorem timeoutCheck_cp (now : Word) : (timeoutCheck now s).cp = s.cp := by
  rcases timeoutCheck_cases s now with ⟨-, -, h⟩ | ⟨-, h⟩ <;> simp [h]

@[simp] theorem timeoutCheck_wgHalf (now : Word) : (timeoutCheck now s).wgHalf = s.wgHalf := by
  rcases timeoutCheck_cases s now with ⟨-, -, h⟩ | ⟨-, h⟩ <;> simp [h]

@[simp] theorem timeoutCheck_inp (now : Word) : (timeoutCheck now s).inp = s.inp := by
  rcases timeoutCheck_cases s now with ⟨-, -, h⟩ | ⟨-, h⟩ <;> simp [h]

@[simp] theorem timeoutCheck_trace (now : Word) : (timeoutCheck now s).trace = s.trace := by
  rcases timeoutCheck_cases s now with ⟨-, -, h⟩ | ⟨-, h⟩ <;> simp [h]

@[simp] theorem timeoutCheck_edgeSet (now : Word) : (timeoutCheck now s).out.edgeSet = s.out.edgeSet := by
  rcases timeoutCheck_cases s now with ⟨-, -, h⟩ | ⟨-, h⟩ <;> simp [h]

@[simp] theorem timeoutCheck_period (now : Word) : (timeoutCheck now s).trk.period = s.trk.period := by
  rcases timeoutCheck_cases s now with ⟨-, -, h⟩ | ⟨-, h⟩ <;> simp [h]

@[simp] theorem timeoutCheck_have1 (now : Word) : (timeoutCheck now s).trk.have1 = s.trk.have1 := by
  rcases timeoutCheck_cases s now with ⟨-, -, h⟩ | ⟨-, h⟩ <;> simp [h]

@[simp] theorem timeoutCheck_perr (now : Word) : (timeoutCheck now s).trk.perr = s.trk.perr := by
  rcases timeoutCheck_cases s now with ⟨-, -, h⟩ | ⟨-, h⟩ <;> simp [h]

@[simp] theorem timeoutCheck_pacc (now : Word) : (timeoutCheck now s).trk.pacc = s.trk.pacc := by
  rcases timeoutCheck_cases s now with ⟨-, -, h⟩ | ⟨-, h⟩ <;> simp [h]

@[simp] theorem pulseExpiry_cfg (now : Word) : (pulseExpiry now s).cfg = s.cfg := by
  rcases pulseExpiry_cases s now with ⟨-, -, h⟩ | ⟨-, h⟩ <;> rw [h]

@[simp] theorem pulseExpiry_trk (now : Word) : (pulseExpiry now s).trk = s.trk := by
  rcases pulseExpiry_cases s now with ⟨-, -, h⟩ | ⟨-, h⟩ <;> rw [h]

@[simp] theorem pulseExpiry_prot (now : Word) : (pulseExpiry now s).prot = s.prot := by
  rcases pulseExpiry_cases s now with ⟨-, -, h⟩ | ⟨-, h⟩ <;> rw [h]

@[simp] theorem pulseExpiry_cp (now : Word) : (pulseExpiry now s).cp = s.cp := by
  rcases pulseExpiry_cases s now with ⟨-, -, h⟩ | ⟨-, h⟩ <;> rw [h]

@[simp] theorem pulseExpiry_wgHalf (now : Word) : (pulseExpiry now s).wgHalf = s.wgHalf := by
  rcases pulseExpiry_cases s now with ⟨-, -, h⟩ | ⟨-, h⟩ <;> rw [h]

@[simp] theorem pulseExpiry_inp (now : Word) : (pulseExpiry now s).inp = s.inp := by
  rcases pulseExpiry_cases s now with ⟨-, -, h⟩ | ⟨-, h⟩ <;> rw [h]

@[simp] theorem pulseExpiry_trace (now : Word) : (pulseExpiry now s).trace = s.trace := by
  rcases pulseExpiry_cases s now with ⟨-, -, h⟩ | ⟨-, h⟩ <;> rw [h]

@[simp] theorem pulseExpiry_out (now : Word) : (pulseExpiry now s).out = s.out := by
  rcases pulseExpiry_cases s now with ⟨-, -, h⟩ | ⟨-, h⟩ <;> rw [h]

@[simp] theorem pulseExpiry_ca (now : Word) : (pulseExpiry now s).par.ca = s.par.ca := by
  rcases pulseExpiry_cases s now with ⟨-, -, h⟩ | ⟨-, h⟩ <;> rw [h]

@[simp] theorem pulseExpiry_pc (now : Word) : (pulseExpiry now s).par.pc = s.par.pc := by
  rcases pulseExpiry_cases s now with ⟨-, -, h⟩ | ⟨-, h⟩ <;> rw [h]

@[simp] theorem pulseExpiry_start (now : Word) : (pulseExpiry now s).pul.start = s.pul.start := by
  rcases pulseExpiry_cases s now with ⟨-, -, h⟩ | ⟨-, h⟩ <;> rw [h]

@[simp] theorem pulseExpiry_dur (now : Word) : (pulseExpiry now s).pul.dur = s.pul.dur := by
  rcases pulseExpiry_cases s now with ⟨-, -, h⟩ | ⟨-, h⟩ <;> rw [h]

/-- The state a CYCLE emits its edge set from. -/
theorem onCycle_next {t : State} {now : Word} (h : onCycle now s = .next t) :
    t = emitEdgeSet now (pulseExpiry now (timeoutCheck now s)) := by
  simp only [onCycle] at h
  split at h
  · exact (Host.Outcome.next.inj h).symm
  · split at h
    · cases h
    · exact (Host.Outcome.next.inj h).symm

/-- A CYCLE answers a next state whenever the period is positive or the output is inhibited. -/
theorem onCycle_answers {now : Word}
    (h : s.trk.period ≠ 0#32 ∨ (pulseExpiry now (timeoutCheck now s)).inhibit = true) :
    onCycle now s = .next (emitEdgeSet now (pulseExpiry now (timeoutCheck now s))) := by
  simp only [onCycle]
  split
  · rfl
  · rename_i hi
    rw [if_neg]
    simpa [hi] using h

theorem nextEdgeSet_valid (now : Word) : (nextEdgeSet now s).valid = true := by
  unfold nextEdgeSet; split <;> rfl

theorem nextEdgeSet_active (now : Word) : (nextEdgeSet now s).active = !s.inhibit := by
  unfold nextEdgeSet; split <;> rename_i h <;> simp [h, inhibitedEdgeSet, activeEdgeSet, EdgeSet.none]

/-! ## The commands (43_command.md) -/

/-- Every command answers a next state: the one rule that no command stops. -/
theorem exec_answers (i : Instr) : ∃ t, exec i s = .next t := by
  cases i <;> exact ⟨_, rfl⟩

/-- What a command leaves alone whichever it is. -/
theorem exec_keeps {i : Instr} {t : State} (h : exec i s = .next t) :
    t.cfg = s.cfg ∧ t.trk = s.trk ∧ t.wgHalf = s.wgHalf ∧ t.inp = s.inp ∧ t.trace = s.trace ∧
    t.out.edgeSet = s.out.edgeSet ∧ t.cp = { s.cp with errCnt := t.cp.errCnt } ∧ t.prot.last = s.prot.last ∧
    t.prot.latchCnt = s.prot.latchCnt := by
  cases i <;>
    simp only [exec, execRun, execStop, execSetParamCa, execSetParamPc, execFirePulse, execResetFault, resetFault] at h <;>
    cases h <;> (repeat' split) <;> simp

/-- How a command can change what the output is armed by and the latch. -/
theorem exec_arming {i : Instr} {t : State} (h : exec i s = .next t) :
    (i = .run ∧ s.prot.latched = false ∧ t = { s with par.run := true, pul.active := false }) ∨
    (i = .stop ∧ t = { s with par.run := false, pul.active := false }) ∨
    (∃ d, i = .firePulse d ∧ fireAccepted s.cfg.toRawConfig d = true ∧ s.prot.latched = false ∧
      t = { s with par.run := true, pul := { active := true, start := s.inp.now, dur := d } }) ∨
    (i = .resetFault ∧ s.prot.latched = true ∧ s.prot.last.toNat ≤ s.cfg.tripSus.toNat ∧
      t = { s with prot.latched := false, prot.susCnt := 0, prot.peak := 0 }) ∨
    (∃ r, i = .setParamCa r ∧ caAccepted s.cfg.toRawConfig r = true ∧ t = { s with par.ca := r }) ∨
    (∃ r, i = .setParamPc r ∧ pcAccepted s.cfg.toRawConfig r = true ∧ t = { s with par.pc := r }) ∨
    (∃ v, t = protoError .protoRange v s) ∨ t = s := by
  cases i <;>
    simp only [exec, execRun, execStop, execSetParamCa, execSetParamPc, execFirePulse, execResetFault, resetFault] at h <;>
    cases h <;> (repeat' split) <;> simp_all <;> exact Or.inl ⟨_, rfl⟩

/-! ## BYTE (43_command.md) -/

/-- What the framer does with a rejected frame: nothing, or one protocol error. -/
theorem rejectFrame_cases (r : Reject) :
    rejectFrame r s = s ∨ ∃ code v, rejectFrame r s = protoError code v s ∧
      code ∈ protoCodes := by
  cases r
  · exact Or.inl rfl
  · exact Or.inl rfl
  all_goals exact Or.inr ⟨_, _, rfl, by simp [protoCodes]⟩

/-- The ways a byte ends: the parser registers alone, one protocol error beside them, or the command of a complete frame. -/
theorem onByte_cases {b : Byte} {t : State} (h : onByte b s = .next t) :
    t = s.advanceParser b ∨
    (∃ code v, t = protoError code v (s.advanceParser b) ∧
      code ∈ protoCodes) ∨
    (∃ i, s.cp.state = .chk ∧ b = s.cp.sum ∧ frameCommand s.cp = .ok i ∧ exec i (s.advanceParser b) = .next t) := by
  unfold onByte at h
  cases hs : s.cp.state <;> simp only [hs] at h
  · left; exact (Host.Outcome.next.inj h).symm
  · left; exact (Host.Outcome.next.inj h).symm
  · have h := Host.Outcome.next.inj h
    subst h
    split
    · rcases rejectFrame_cases (s.advanceParser b) (.length b) with h | ⟨c, v, h, hc⟩
      · left; exact h
      · right; left; exact ⟨c, v, h, hc⟩
    · left; rfl
  · split at h
    · cases h
    · left; exact (Host.Outcome.next.inj h).symm
  · split at h
    · rename_i hb
      have hf : frameCommand (s.advanceParser b).cp = frameCommand s.cp := by
        simp [frameCommand, State.advanceParser, Parser.advance, hs]
      unfold dispatch at h
      rw [hf] at h
      cases hc : frameCommand s.cp with
      | ok i => rw [hc] at h; right; right; exact ⟨i, rfl, hb, rfl, h⟩
      | error r =>
        rw [hc] at h
        have h := Host.Outcome.next.inj h
        subst h
        rcases rejectFrame_cases (s.advanceParser b) r with h | ⟨c, v, h, hc⟩
        · left; exact h
        · right; left; exact ⟨c, v, h, hc⟩
    · have h := Host.Outcome.next.inj h
      subst h
      rcases rejectFrame_cases (s.advanceParser b) (.checksum b) with h | ⟨c, v, h, hc⟩
      · left; exact h
      · right; left; exact ⟨c, v, h, hc⟩

/-- A byte answers a next state unless it is a payload byte past the buffer. -/
theorem onByte_answers {b : Byte} (h : s.cp.state = .pay → s.cp.cnt.toNat < 8) : ∃ t, onByte b s = .next t := by
  unfold onByte
  cases hs : s.cp.state <;> simp only
  · exact ⟨_, rfl⟩
  · exact ⟨_, rfl⟩
  · exact ⟨_, rfl⟩
  · rw [if_neg]
    · exact ⟨_, rfl⟩
    · have := h hs; simp only [maxPayload]; omega
  · split
    · unfold dispatch
      split
      · exact exec_answers _ _
      · exact ⟨_, rfl⟩
    · exact ⟨_, rfl⟩

/-- What a byte leaves alone whatever it is. -/
theorem onByte_keeps {b : Byte} {t : State} (h : onByte b s = .next t) :
    t.cfg = s.cfg ∧ t.trk = s.trk ∧ t.wgHalf = s.wgHalf ∧ t.inp = s.inp ∧ t.trace = s.trace ∧
    t.out.edgeSet = s.out.edgeSet ∧ t.cp = { s.cp.advance b with errCnt := t.cp.errCnt } ∧ t.prot.last = s.prot.last ∧
    t.prot.latchCnt = s.prot.latchCnt := by
  rcases onByte_cases s h with rfl | ⟨c, v, rfl, -⟩ | ⟨i, -, -, -, h⟩
  · simp only [advanceParser_cp, advance_errCnt, advanceParser_cfg, advanceParser_trk, advanceParser_wgHalf, advanceParser_inp,
      advanceParser_trace, advanceParser_out, advanceParser_prot, true_and, and_true]
    rw [← advance_errCnt b s.cp]
  · simp
  · have := exec_keeps _ h
    simpa using this

end Sys2Proof.Machine
end

