-- ==== Sys2Proof/Laws/Edge.lean ====
section
/-! SUPPORT. What one EDGE leaves in each tracker register when it has a reference edge (40_pll.md R111). -/

namespace Sys2Proof.Machine

theorem halfPeriods_eq (m : EdgeMode) : halfPeriods m = if m = .samePolarity then 2 else 1 := by cases m <;> rfl

theorem rawHalfPeriod_toNat (m : EdgeMode) (ts ref : Word) :
    (rawHalfPeriod m ts ref).toNat = (ts - ref).toNat / (if m = .samePolarity then 2 else 1) := by
  cases m <;> simp [rawHalfPeriod, halfPeriods, BitVec.toNat_ushiftRight, Nat.shiftRight_eq_div_pow]

variable {s : State} {ts ref : Word} {pol : Polarity}

/-- A measurement itself counts no fault: that is the range fault's (R119). -/
theorem measureEdge_faultCnt (c : RawConfig) (t : Tracker) : (measureEdge c ts ref t).faultCnt = t.faultCnt := by
  cases h : t.have1 <;> simp [measureEdge, h, periodUpdate, phaseUpdate, lockUpdate]

theorem onEdge_have1 (h : s.trk.refEdge s.cfg.edgeMode pol = some ref) : (onEdge ts pol s).trk.have1 = true := by
  rw [onEdge_of_ref s h]
  simp only [seed_have1]
  rcases onMeasurement_cases s ts ref with ⟨-, h⟩ | ⟨-, h⟩ <;> rw [h] <;> rfl

theorem onEdge_period (h : s.trk.refEdge s.cfg.edgeMode pol = some ref) :
    (onEdge ts pol s).trk.period =
      let rawc := clampRaw s.cfg.toRawConfig (rawHalfPeriod s.cfg.edgeMode ts ref)
      if s.trk.have1 then filterPeriod s.cfg.toRawConfig rawc s.trk.period else rawc := by
  rw [onEdge_of_ref s h]
  simp only [seed_period]
  rcases onMeasurement_cases s ts ref with ⟨-, h⟩ | ⟨-, h⟩ <;> rw [h] <;> cases hh : s.trk.have1 <;>
    simp [measureEdge, hh, periodUpdate, trackingFault, phaseUpdate, lockUpdate]

theorem onEdge_perr (h : s.trk.refEdge s.cfg.edgeMode pol = some ref) :
    (onEdge ts pol s).trk.perr =
      if s.trk.have1 then phaseError s.cfg.edgeMode ts ref s.trk.period else s.trk.perr := by
  rw [onEdge_of_ref s h]
  simp only [seed_perr]
  rcases onMeasurement_cases s ts ref with ⟨-, h⟩ | ⟨-, h⟩ <;> rw [h] <;> cases hh : s.trk.have1 <;>
    simp [measureEdge, hh, periodUpdate, trackingFault, phaseUpdate, lockUpdate]

theorem onEdge_pacc (h : s.trk.refEdge s.cfg.edgeMode pol = some ref) :
    (onEdge ts pol s).trk.pacc =
      if s.trk.have1 then satAddS32 s.trk.pacc (phaseError s.cfg.edgeMode ts ref s.trk.period) else s.trk.pacc := by
  rw [onEdge_of_ref s h]
  simp only [seed_pacc]
  rcases onMeasurement_cases s ts ref with ⟨-, h⟩ | ⟨-, h⟩ <;> rw [h] <;> cases hh : s.trk.have1 <;>
    simp [measureEdge, hh, periodUpdate, trackingFault, phaseUpdate, lockUpdate]

/-- The seeds of a polarity survive a measurement (R121 alone writes them). -/
theorem onMeasurement_seeds (p : Polarity) :
    (onMeasurement ts ref s).trk.seen p = s.trk.seen p ∧ (onMeasurement ts ref s).trk.tlast p = s.trk.tlast p := by
  have keep : ∀ t : Tracker, (measureEdge s.cfg.toRawConfig ts ref t).seen p = t.seen p ∧
      (measureEdge s.cfg.toRawConfig ts ref t).tlast p = t.tlast p := by
    intro t
    unfold measureEdge
    split <;> cases p <;> exact ⟨rfl, rfl⟩
  rcases onMeasurement_cases s ts ref with ⟨-, h⟩ | ⟨-, h⟩ <;> rw [h]
  · exact keep _
  · have := keep s.trk
    cases p <;> exact this

end Sys2Proof.Machine
end

