-- ==== Sys2Proof/Laws/PerInstr.lean ====
section
/-! SUPPORT. A law of every command's encoding, one lemma per constructor: the shape of its frame (30_encoding.md R81, R83, R85). -/

namespace Sys2Proof.Laws.EncodeShape

/-- The frame of a command is 4 + LEN bytes long, opens with SOF, carries the LEN its CMD requires, and closes with the checksum of
everything between. -/
def Statement (i : Instr) : Prop :=
  ∃ (cmd len : Byte) (pay : List Byte),
    encode i = frameBytes cmd len pay ∧ pay.length = len.toNat ∧ (cmd.toNat, len.toNat) ∈ requiredLens

theorem run : Statement .run := ⟨0x01, 0, [], by decide, by decide, by decide⟩

theorem stop : Statement .stop := ⟨0x02, 0, [], by decide, by decide, by decide⟩

theorem setParamCa (raw : Half) : Statement (.setParamCa raw) :=
  ⟨0x03, 3, [0x00, loByte raw, hiByte raw], rfl, rfl, by decide⟩

theorem setParamPc (raw : Half) : Statement (.setParamPc raw) :=
  ⟨0x03, 3, [0x01, loByte raw, hiByte raw], rfl, rfl, by decide⟩

theorem firePulse (d : Half) : Statement (.firePulse d) :=
  ⟨0x04, 2, [loByte d, hiByte d], rfl, rfl, by decide⟩

theorem resetFault : Statement .resetFault := ⟨0x05, 0, [], by decide, by decide, by decide⟩

end Sys2Proof.Laws.EncodeShape
end

