-- ==== Sys2Proof/Laws/Step.lean ====
section
/-! SUPPORT. What one clock can do (10_state.md R50), said once; the invariants are derived from it. -/

namespace Sys2Proof.Machine

@[simp] theorem andThen_next (s : State) (f : State → Result) : Result.andThen (.next s) f = f s := rfl

theorem andThen_eq_next {r : Result} {f : State → Result} {t : State} (h : r.andThen f = .next t) :
    ∃ u, r = .next u ∧ f u = .next t := by
  cases r with
  | next u => exact ⟨u, rfl, h⟩
  | fault e => cases e
  | refused e => cases h

/-- One step is a reset clock, or SAMPLE and EDGE, then BYTE, then CYCLE. -/
theorem step_cases {s t : State} (h : step s = .next t) :
    (s.nextClock.inp.reset = true ∧ t = s.nextClock.resetRegisters) ∨
    (s.nextClock.inp.reset = false ∧ ∃ u, byteEvent s.nextClock.inp.byte s.beforeByte = .next u ∧
      cycleEvent s.nextClock.inp.cycle s.nextClock.inp.now u = .next t) := by
  unfold step clock at h
  split at h
  · rename_i hr; left; exact ⟨hr, (Host.Outcome.next.inj h).symm⟩
  · rename_i hr; right
    refine ⟨by simpa using hr, ?_⟩
    exact andThen_eq_next h

theorem step_of_no_reset {s : State} (h : s.nextClock.inp.reset = false) :
    step s = Result.andThen (byteEvent s.nextClock.inp.byte s.beforeByte)
      (cycleEvent s.nextClock.inp.cycle s.nextClock.inp.now) := by
  unfold step clock State.beforeByte
  simp [h]

theorem step_of_reset {s : State} (h : s.nextClock.inp.reset = true) : step s = .next s.nextClock.resetRegisters := by
  unfold step clock
  simp [h]

theorem sampleEvent_cases (x : Option Half) (s : State) : sampleEvent x s = s ∨ ∃ v, x = some v ∧ sampleEvent x s = onSample v s := by
  cases x with
  | none => left; rfl
  | some v => right; exact ⟨v, rfl, rfl⟩

theorem edgeEvent_cases (e : Option Edge) (s : State) :
    edgeEvent e s = s ∨ ∃ v, e = some v ∧ edgeEvent e s = onEdge v.ts v.pol s := by
  cases e with
  | none => left; rfl
  | some v => right; exact ⟨v, rfl, rfl⟩

theorem byteEvent_cases {b : Option Byte} {s t : State} (h : byteEvent b s = .next t) :
    t = s ∨ ∃ v, b = some v ∧ onByte v s = .next t := by
  cases b with
  | none => left; exact (Host.Outcome.next.inj h).symm
  | some v => right; exact ⟨v, rfl, h⟩

theorem cycleEvent_cases {c : Bool} {now : Word} {s t : State} (h : cycleEvent c now s = .next t) :
    (c = false ∧ t = s) ∨ (c = true ∧ t = emitEdgeSet now (pulseExpiry now (timeoutCheck now s))) := by
  cases c with
  | false => left; exact ⟨rfl, (Host.Outcome.next.inj h).symm⟩
  | true => right; exact ⟨rfl, onCycle_next _ h⟩

@[simp] theorem beforeByte_cfg (s : State) : s.beforeByte.cfg = s.nextClock.cfg := by
  unfold State.beforeByte
  rcases sampleEvent_cases s.nextClock.inp.sample s.nextClock with h | ⟨v, -, h⟩ <;> rw [h] <;>
  rcases edgeEvent_cases s.nextClock.inp.edge _ with h' | ⟨e, -, h'⟩ <;> rw [h'] <;> simp

@[simp] theorem beforeByte_cp (s : State) : s.beforeByte.cp = s.nextClock.cp := by
  unfold State.beforeByte
  rcases sampleEvent_cases s.nextClock.inp.sample s.nextClock with h | ⟨v, -, h⟩ <;> rw [h] <;>
  rcases edgeEvent_cases s.nextClock.inp.edge _ with h' | ⟨e, -, h'⟩ <;> rw [h'] <;> simp

@[simp] theorem beforeByte_wgHalf (s : State) : s.beforeByte.wgHalf = s.nextClock.wgHalf := by
  unfold State.beforeByte
  rcases sampleEvent_cases s.nextClock.inp.sample s.nextClock with h | ⟨v, -, h⟩ <;> rw [h] <;>
  rcases edgeEvent_cases s.nextClock.inp.edge _ with h' | ⟨e, -, h'⟩ <;> rw [h'] <;> simp

@[simp] theorem beforeByte_inp (s : State) : s.beforeByte.inp = s.nextClock.inp := by
  unfold State.beforeByte
  rcases sampleEvent_cases s.nextClock.inp.sample s.nextClock with h | ⟨v, -, h⟩ <;> rw [h] <;>
  rcases edgeEvent_cases s.nextClock.inp.edge _ with h' | ⟨e, -, h'⟩ <;> rw [h'] <;> simp

@[simp] theorem beforeByte_trace (s : State) : s.beforeByte.trace = s.nextClock.trace := by
  unfold State.beforeByte
  rcases sampleEvent_cases s.nextClock.inp.sample s.nextClock with h | ⟨v, -, h⟩ <;> rw [h] <;>
  rcases edgeEvent_cases s.nextClock.inp.edge _ with h' | ⟨e, -, h'⟩ <;> rw [h'] <;> simp


/-- Package the induction over the events of a clock once: what a reset gives and every handler keeps, every step keeps. -/
theorem step_keeps (P : State → Prop) {s t : State} (hs : P s) (h : step s = .next t)
    (clear : ∀ u, P u → P u.nextClock)
    (reset : ∀ u, P u → P u.resetRegisters)
    (sample : ∀ u x, P u → P (onSample x u))
    (edge : ∀ u ts pol, P u → P (onEdge ts pol u))
    (byte : ∀ u b v, P u → onByte b u = .next v → P v)
    (cycle : ∀ u now, P u → P (emitEdgeSet now (pulseExpiry now (timeoutCheck now u)))) : P t := by
  have h0 := clear s hs
  rcases step_cases h with ⟨-, rfl⟩ | ⟨-, u, hb, hc⟩
  · exact reset _ h0
  · have h1 : P (sampleEvent s.nextClock.inp.sample s.nextClock) := by
      rcases sampleEvent_cases s.nextClock.inp.sample s.nextClock with e | ⟨v, -, e⟩ <;> rw [e]
      · exact h0
      · exact sample _ _ h0
    have h2 : P s.beforeByte := by
      unfold State.beforeByte
      rcases edgeEvent_cases s.nextClock.inp.edge (sampleEvent s.nextClock.inp.sample s.nextClock) with e | ⟨v, -, e⟩ <;> rw [e]
      · exact h1
      · exact edge _ _ _ h1
    have h3 : P u := by
      rcases byteEvent_cases hb with rfl | ⟨v, -, e⟩
      · exact h2
      · exact byte _ _ _ h2 e
    rcases cycleEvent_cases hc with ⟨-, rfl⟩ | ⟨-, rfl⟩
    · exact h3
    · exact cycle _ _ h3

end Sys2Proof.Machine
end

