-- ==== Sys2Proof/Laws/Timestamps.lean ====
section
/-! SUPPORT. A platform that keeps 70_reset_and_hazards.md R260 is measured right: the timestamps the block holds stay the low 32 bits of
the platform's counts, and each wrapping difference it takes is the difference of the counts. -/

namespace Sys2Proof.Machine

/-- A wrapping difference of two counts less than 2^32 apart is their difference. -/
theorem ticks_sub {a b : Nat} (h : a ≤ b) (h' : b < a + 2 ^ 32) : (BitVec.ofNat 32 b - BitVec.ofNat 32 a).toNat = b - a := by
  rw [BitVec.toNat_sub, BitVec.toNat_ofNat, BitVec.toNat_ofNat]
  omega

theorem commandOf_eq_some {s : State} {i : Instr} :
    commandOf s = some i ↔ s.nextClock.inp.reset = false ∧ s.cp.state = .chk ∧ s.nextClock.inp.byte = some s.cp.sum ∧
      frameCommand s.cp = .ok i := by
  unfold commandOf
  cases s.nextClock.inp.reset <;> simp
  constructor
  · rintro ⟨⟨h1, h2⟩, h3⟩
    refine ⟨h1, h2, ?_⟩
    cases h : frameCommand s.cp <;> rw [h] at h3 <;> simp [Except.toOption] at h3
    rw [h3]
  · rintro ⟨h1, h2, h3⟩
    exact ⟨⟨h1, h2⟩, by rw [h3]; rfl⟩

/-- The CHECKSUM byte of a command's frame runs it. -/
theorem onByte_of_command {s : State} {i : Instr} (h : s.cp.state = .chk) (hf : frameCommand s.cp = .ok i) :
    onByte s.cp.sum s = exec i (s.advanceParser s.cp.sum) := by
  have hf' : frameCommand (s.advanceParser s.cp.sum).cp = .ok i := by
    rw [← hf]; simp [frameCommand, State.advanceParser, Parser.advance, h]
  unfold onByte
  rw [h]
  simp only [if_true]
  unfold dispatch
  rw [hf']

/-- Reset holds nothing that can be compared. -/
theorem reset_held (c : Config) : TimestampsHeld .start (State.resetWith c) := by
  unfold TimestampsHeld
  refine ⟨fun p h => ?_, fun h => (by cases h), fun h => (by cases h), fun p => ?_, Nat.le_refl _, Nat.le_refl _⟩
  · cases p <;> cases h
  · cases p <;> exact Nat.le_refl _

/-- What BYTE does to the pulse timer: start it at `IN_NOW`, or leave a running one as it was. -/
theorem byteEvent_pulse {s u : State} (hr : s.nextClock.inp.reset = false)
    (h : byteEvent s.nextClock.inp.byte s.beforeByte = .next u) :
    (startsPulse s = true → u.pul.start = s.nextClock.inp.now) ∧
    (startsPulse s = false → u.pul.active = true → s.beforeByte.pul.active = true ∧ u.pul.start = s.beforeByte.pul.start) := by
  constructor
  · intro hs
    unfold startsPulse at hs
    split at hs
    · rename_i d hd
      obtain ⟨-, h1, h2, h3⟩ := commandOf_eq_some.1 hd
      have hcp : s.beforeByte.cp = s.cp := by simp
      rw [h2] at h
      have e := onByte_of_command (s := s.beforeByte) (by rw [hcp]; exact h1) (by rw [hcp]; exact h3)
      rw [hcp] at e
      simp only [byteEvent, e, exec, execFirePulse] at h
      simp only [Instr.inRange, Bool.and_eq_true, decide_eq_true_eq, Bool.not_eq_true'] at hs
      have h := (Host.Outcome.next.inj h).symm
      subst h
      simp [fireAccepted, hs.1, hs.2]
    · cases hs
  · intro hs ha
    rcases byteEvent_cases h with rfl | ⟨b, hb, e⟩
    · exact ⟨ha, rfl⟩
    · rcases onByte_cases _ e with rfl | ⟨c, v, rfl, -⟩ | ⟨i, h1, h2, h3, h4⟩
      · exact ⟨ha, rfl⟩
      · exact ⟨ha, rfl⟩
      · rw [beforeByte_cp, nextClock_cp] at h1 h2 h3
        subst h2
        have hc : commandOf s = some i := commandOf_eq_some.2 ⟨hr, h1, hb, h3⟩
        rcases exec_arming _ h4 with ⟨rfl, -, rfl⟩ | ⟨rfl, rfl⟩ | ⟨d, rfl, hd, hl, rfl⟩ | ⟨rfl, -, -, rfl⟩ | ⟨r, rfl, -, rfl⟩ |
          ⟨r, rfl, -, rfl⟩ | ⟨v, rfl⟩ | rfl
        · cases ha
        · cases ha
        · simp only [advanceParser_prot, advanceParser_cfg, beforeByte_cfg, nextClock_cfg] at hd hl
          simp only [startsPulse, hc, Instr.inRange, hl] at hs
          simp [fireAccepted] at hd
          simp [hd] at hs
        all_goals exact ⟨ha, rfl⟩

/-- An edge's seeds hold its count. -/
theorem seed_held {g : PastTicks} {c : ClockTicks} {e : Edge} {r : Tracker}
    (h : ∀ q, r.seen q = true → r.tlast q = BitVec.ofNat 32 (g.ofPolarity q)) (hts : e.ts = BitVec.ofNat 32 c.edge) (p : Polarity) :
    (r.seed e.pol e.ts).seen p = true →
      (r.seed e.pol e.ts).tlast p = BitVec.ofNat 32 ((g.withEdge c (some e)).ofPolarity p) := by
  have h := h p
  cases hq : e.pol <;> cases p <;> simp only [PastTicks.withEdge, hq] <;> first | exact h | exact fun _ => hts

theorem seed_tAny_held {g : PastTicks} {c : ClockTicks} {e : Edge} {r : Tracker} (hts : e.ts = BitVec.ofNat 32 c.edge) :
    (r.seed e.pol e.ts).tAny = BitVec.ofNat 32 (g.withEdge c (some e)).edge := by
  cases hq : e.pol <;> simp only [PastTicks.withEdge, hq] <;> exact hts

/-- What SAMPLE and EDGE do to what is held: the pulse timer is left or stopped, the seeds take the clock's edge. -/
theorem beforeByte_held {g : PastTicks} {c : ClockTicks} {s : State} (hg : TimestampsHeld g s)
    (hc : clockTicksOk g c s.nextClock.inp = true) :
    (∀ p, s.beforeByte.trk.seen p = true →
      s.beforeByte.trk.tlast p = BitVec.ofNat 32 ((g.withEdge c s.nextClock.inp.edge).ofPolarity p)) ∧
    (s.beforeByte.trk.anyV = true → s.beforeByte.trk.tAny = BitVec.ofNat 32 (g.withEdge c s.nextClock.inp.edge).edge) ∧
    (s.beforeByte.pul.active = true → s.pul.active = true ∧ s.beforeByte.pul.start = s.pul.start) := by
  obtain ⟨h1, h2, -⟩ := hg
  have hs : (sampleEvent s.nextClock.inp.sample s.nextClock).trk = s.trk ∧
      ((sampleEvent s.nextClock.inp.sample s.nextClock).pul.active = true → s.pul.active = true) ∧
      (sampleEvent s.nextClock.inp.sample s.nextClock).pul.start = s.pul.start := by
    rcases sampleEvent_cases s.nextClock.inp.sample s.nextClock with e | ⟨v, -, e⟩ <;> rw [e]
    · simp
    · refine ⟨by simp, ?_, by simp⟩
      rcases onSample_cases s.nextClock v with ⟨h, -⟩ | ⟨-, ⟨-, h⟩ | ⟨-, -, h⟩⟩ <;> rw [h] <;> simp
  unfold State.beforeByte
  cases he : s.nextClock.inp.edge with
  | none =>
    simp only [edgeEvent, PastTicks.withEdge, hs.1]
    exact ⟨h1, h2, fun ha => ⟨hs.2.1 ha, hs.2.2⟩⟩
  | some e =>
    have hts : e.ts = BitVec.ofNat 32 c.edge := by
      unfold clockTicksOk at hc; rw [he] at hc; simp at hc; exact hc.2.1
    simp only [edgeEvent, onEdge_pul]
    have key : ∀ q, (sampleEvent s.nextClock.inp.sample s.nextClock).trk.seen q = true →
        (sampleEvent s.nextClock.inp.sample s.nextClock).trk.tlast q = BitVec.ofNat 32 (g.ofPolarity q) := by rw [hs.1]; exact h1
    have hold : (∀ p, (onEdge e.ts e.pol (sampleEvent s.nextClock.inp.sample s.nextClock)).trk.seen p = true →
          (onEdge e.ts e.pol (sampleEvent s.nextClock.inp.sample s.nextClock)).trk.tlast p =
            BitVec.ofNat 32 ((g.withEdge c (some e)).ofPolarity p)) ∧
        (onEdge e.ts e.pol (sampleEvent s.nextClock.inp.sample s.nextClock)).trk.tAny =
          BitVec.ofNat 32 (g.withEdge c (some e)).edge := by
      rcases onEdge_cases (sampleEvent s.nextClock.inp.sample s.nextClock) e.ts e.pol with ⟨-, h⟩ | ⟨ref, -, h⟩ <;> rw [h]
      · exact ⟨seed_held key hts, seed_tAny_held hts⟩
      · refine ⟨seed_held (fun q => ?_) hts, seed_tAny_held hts⟩
        rw [(onMeasurement_seeds q).1, (onMeasurement_seeds q).2]
        exact key q
    exact ⟨hold.1, fun _ => hold.2, fun ha => ⟨hs.2.1 ha, hs.2.2⟩⟩

/-- What the pulse timer holds at the CYCLE of a clock. -/
theorem byteEvent_held {g : PastTicks} {c : ClockTicks} {s u : State} (hg : TimestampsHeld g s)
    (hc : clockTicksOk g c s.nextClock.inp = true) (hr : s.nextClock.inp.reset = false)
    (hb : byteEvent s.nextClock.inp.byte s.beforeByte = .next u) (ha : u.pul.active = true) :
    u.pul.start = BitVec.ofNat 32 (g.atCycle c s).pulseStart := by
  have hnow : s.nextClock.inp.now = BitVec.ofNat 32 c.now := by
    unfold clockTicksOk at hc; simp at hc; exact hc.1.1
  obtain ⟨k1, k2⟩ := byteEvent_pulse hr hb
  cases hs : startsPulse s
  · obtain ⟨h1, h2⟩ := k2 hs ha
    obtain ⟨h3, h4⟩ := (beforeByte_held hg hc).2.2 h1
    rw [h2, h4, hg.2.2.1 h3]; simp [PastTicks.atCycle, hs]
  · rw [k1 hs, hnow]; simp [PastTicks.atCycle, hs]

/-- With counts that go forward, every clock keeps what is held (R260). -/
theorem step_keeps_held {g : PastTicks} {c : ClockTicks} {s t : State} (hg : TimestampsHeld g s)
    (hc : clockTicksOk g c s.nextClock.inp = true) (h : step s = .next t) : TimestampsHeld (g.afterClock c s) t := by
  have hnow : s.nextClock.inp.now = BitVec.ofNat 32 c.now ∧ g.now ≤ c.now := by
    unfold clockTicksOk at hc; simp at hc; exact hc.1
  have hord : (∀ p, (g.afterClock c s).ofPolarity p ≤ (g.afterClock c s).edge) ∧
      (g.afterClock c s).edge ≤ (g.afterClock c s).now ∧ (g.afterClock c s).pulseStart ≤ (g.afterClock c s).now := by
    obtain ⟨-, -, -, k1, k2, k3⟩ := hg
    have kp : (g.atCycle c s).pulseStart ≤ c.now := by simp only [PastTicks.atCycle]; split <;> omega
    have kf := k1 .falling
    have kr := k1 .rising
    simp only [PastTicks.ofPolarity] at kf kr
    refine ⟨?_, ?_, kp⟩
    · intro p
      unfold clockTicksOk at hc
      cases he : s.nextClock.inp.edge with
      | none =>
        cases p <;> simp only [PastTicks.afterClock, PastTicks.atCycle, PastTicks.withEdge, PastTicks.ofPolarity, he] <;> assumption
      | some e =>
        rw [he] at hc; simp at hc
        cases hp : e.pol <;> cases p <;>
          simp only [PastTicks.afterClock, PastTicks.atCycle, PastTicks.withEdge, PastTicks.ofPolarity, he, hp] <;> omega
    · unfold clockTicksOk at hc
      cases he : s.nextClock.inp.edge with
      | none => simp only [PastTicks.afterClock, PastTicks.atCycle, PastTicks.withEdge, he]; omega
      | some e =>
        rw [he] at hc; simp at hc
        cases hp : e.pol <;> simp only [PastTicks.afterClock, PastTicks.atCycle, PastTicks.withEdge, he, hp] <;> omega
  refine ⟨?_, ?_, ?_, hord⟩ <;> rcases step_cases h with ⟨-, rfl⟩ | ⟨hr, u, hb, hcy⟩
  · intro p hp; cases p <;> cases hp
  · obtain ⟨k1, -, -⟩ := beforeByte_held hg hc
    have hu : u.trk = s.beforeByte.trk := by
      rcases byteEvent_cases hb with rfl | ⟨v, -, e⟩
      · rfl
      · exact (onByte_keeps _ e).2.1
    intro p hp
    have ht : t.trk.seen p = true → u.trk.seen p = true ∧ t.trk.tlast p = u.trk.tlast p := by
      rcases cycleEvent_cases hcy with ⟨-, rfl⟩ | ⟨-, rfl⟩
      · exact fun h => ⟨h, rfl⟩
      · simp only [emitEdgeSet_trk, pulseExpiry_trk]
        rcases timeoutCheck_cases u s.nextClock.inp.now with ⟨-, -, e⟩ | ⟨-, e⟩ <;> rw [e]
        · intro hp; cases p <;> cases hp
        · exact fun h => ⟨h, rfl⟩
    rw [(ht hp).2, hu]
    have := k1 p (by rw [← hu]; exact (ht hp).1)
    cases p <;> exact this
  · intro hp; cases hp
  · obtain ⟨-, k2, -⟩ := beforeByte_held hg hc
    have hu : u.trk = s.beforeByte.trk := by
      rcases byteEvent_cases hb with rfl | ⟨v, -, e⟩
      · rfl
      · exact (onByte_keeps _ e).2.1
    intro hp
    have ht : t.trk.anyV = true → u.trk.anyV = true ∧ t.trk.tAny = u.trk.tAny := by
      rcases cycleEvent_cases hcy with ⟨-, rfl⟩ | ⟨-, rfl⟩
      · exact fun h => ⟨h, rfl⟩
      · simp only [emitEdgeSet_trk, pulseExpiry_trk]
        rcases timeoutCheck_cases u s.nextClock.inp.now with ⟨-, -, e⟩ | ⟨-, e⟩ <;> rw [e]
        · intro hp; cases hp
        · exact fun h => ⟨h, rfl⟩
    rw [(ht hp).2, hu]
    exact k2 (by rw [← hu]; exact (ht hp).1)
  · intro hp; cases hp
  · intro hp
    have ht : u.pul.active = true ∧ t.pul.start = u.pul.start := by
      rcases cycleEvent_cases hcy with ⟨-, rfl⟩ | ⟨-, rfl⟩
      · exact ⟨hp, rfl⟩
      · simp only [emitEdgeSet_pul] at hp ⊢
        rcases pulseExpiry_cases (timeoutCheck s.nextClock.inp.now u) s.nextClock.inp.now with ⟨-, -, e⟩ | ⟨-, e⟩ <;>
          rw [e] at hp ⊢
        · cases hp
        · simpa using hp
    rw [ht.2]
    exact byteEvent_held hg hc hr hb ht.1

/-- An edge is measured from its reference by the difference of their counts (40_pll.md R113). -/
theorem edge_measured {g : PastTicks} {c : ClockTicks} {s : State} {e : Edge} {ref : Word} (hg : TimestampsHeld g s)
    (hok : nextClockOk g c s = true) (hr : s.nextClock.inp.reset = false) (he : s.nextClock.inp.edge = some e)
    (href : s.trk.refEdge s.cfg.edgeMode e.pol = some ref) :
    (e.ts - ref).toNat = c.edge - g.refEdge s.cfg.edgeMode e.pol := by
  obtain ⟨h1, h2, -, h4, -, -⟩ := hg
  unfold nextClockOk clockTicksOk comparedTicks at hok
  simp only [hr, he, href, Option.isSome_some, if_true, Bool.false_eq_true, if_false, Bool.and_eq_true, decide_eq_true_eq,
    List.singleton_append, List.all_cons] at hok
  obtain ⟨⟨-, hts, -, hle⟩, hlt, -⟩ := hok
  have key : ref = BitVec.ofNat 32 (g.refEdge s.cfg.edgeMode e.pol) ∧ g.refEdge s.cfg.edgeMode e.pol ≤ g.edge := by
    unfold Tracker.refEdge at href
    cases hm : s.cfg.edgeMode <;> rw [hm] at href <;> simp only [Option.ite_none_right_eq_some, Option.some.injEq] at href
    · exact ⟨href.2 ▸ h1 _ href.1, h4 _⟩
    · exact ⟨href.2 ▸ h2 href.1, Nat.le_refl _⟩
  rw [hts, key.1]
  exact ticks_sub (by omega) (by omega)

/-- A CYCLE measures the time since the last edge, and that since the start of a running pulse, by the difference of the counts
(40_pll.md R123, 41_waveform.md R142). -/
theorem cycle_measured {g : PastTicks} {c : ClockTicks} {s u : State} (hg : TimestampsHeld g s)
    (hok : nextClockOk g c s = true) (hr : s.nextClock.inp.reset = false) (hcy : s.nextClock.inp.cycle = true)
    (hb : byteEvent s.nextClock.inp.byte s.beforeByte = .next u) :
    (u.trk.anyV = true → (s.nextClock.inp.now - u.trk.tAny).toNat = c.now - (g.atCycle c s).edge) ∧
    (u.pul.active = true → (s.nextClock.inp.now - u.pul.start).toNat = c.now - (g.atCycle c s).pulseStart) := by
  have hok' := hok
  unfold nextClockOk at hok'
  rw [Bool.and_eq_true] at hok'
  obtain ⟨hc, hcmp⟩ := hok'
  obtain ⟨-, k2, -⟩ := beforeByte_held hg hc
  have hu : u.trk = s.beforeByte.trk := by
    rcases byteEvent_cases hb with rfl | ⟨v, -, e⟩
    · rfl
    · exact (onByte_keeps _ e).2.1
  have hnow : s.nextClock.inp.now = BitVec.ofNat 32 c.now ∧ g.now ≤ c.now := by
    unfold clockTicksOk at hc; simp at hc; exact hc.1
  have hle : (g.atCycle c s).edge ≤ c.now ∧ (g.atCycle c s).pulseStart ≤ c.now := by
    obtain ⟨-, -, -, -, k4, k5⟩ := hg
    constructor
    · unfold clockTicksOk at hc
      cases he : s.nextClock.inp.edge with
      | none => simp only [PastTicks.atCycle, PastTicks.withEdge, he]; omega
      | some e =>
        rw [he] at hc; simp at hc
        cases hp : e.pol <;> simp only [PastTicks.atCycle, PastTicks.withEdge, he, hp] <;> omega
    · simp only [PastTicks.atCycle]; split <;> omega
  unfold comparedTicks at hcmp
  simp only [hr, hcy, hb, if_true, Bool.false_eq_true, if_false, List.all_append, Bool.and_eq_true] at hcmp
  obtain ⟨-, h1, h2⟩ := hcmp
  constructor
  · intro ha
    rw [ha] at h1; simp at h1
    have : u.trk.tAny = BitVec.ofNat 32 (g.atCycle c s).edge := by rw [hu]; exact k2 (by rw [← hu]; exact ha)
    rw [hnow.1, this]
    exact ticks_sub hle.1 (by omega)
  · intro ha
    rw [ha] at h2; simp at h2
    rw [hnow.1, byteEvent_held hg hc hr hb ha]
    exact ticks_sub hle.2 (by omega)

end Sys2Proof.Machine
end

