-- ==== Sys2Proof/Tests/Slice0.lean ====
section
/-! SUPPORT. Tests. Expected values are the spec's: its vectors (95_test_vectors.md, named by their ids), its worked examples, or hand
calculation from the rule cited. Then, for every statement with hypotheses, a theorem that concrete states meet them. -/

/-- A state with one clock to come. -/
def Sys2Proof.Machine.State.nextIs (s : Sys2Proof.Machine.State) (i : Sys2Proof.Machine.PortIn) : Sys2Proof.Machine.State :=
  { s with trace := [i] }

namespace Sys2Proof.Tests

open Sys2Proof.Machine

/-! ## Configurations and small states -/

/-- `CFG0` of 95_test_vectors.md. -/
def raw0 : RawConfig where
  edgeMode := .samePolarity
  filterShift := 3
  lockThresh := 50
  lockCount := 4
  periodMin := 1000
  periodMax := 50000
  periodInit := 10000
  caMax := 58982
  caInit := 32768
  deadMin := 100
  pcMin := BitVec.ofInt 16 (-20000)
  pcMax := 20000
  pcInit := 0
  tripInst := 1000
  tripSus := 800
  susCount := 3
  fireMax := 60000

def cfg0 : Config := { raw0 with ok := by decide }

/-- `CFG1`: CA_MAX = 65535. -/
def cfg1 : Config := { raw0 with caMax := 65535, ok := by decide }

/-- `CFG2`: ANY_EDGE. -/
def cfg2 : Config := { raw0 with edgeMode := .anyEdge, ok := by decide }

/-- The reset state of each. -/
def s0 : State := State.resetWith cfg0
def s1 : State := State.resetWith cfg1
def s2 : State := State.resetWith cfg2

/-- Present event lines. -/
def State.present (s : State) (ls : List EventLine) : State := { s with trace := ls.flatMap EventLine.clocks }

/-- One field of a next state; none after a stop. -/
def field {α : Type} (r : Result) (f : State → α) : Option α :=
  match r with
  | .next s => some (f s)
  | _ => none

/-! ## Well-formedness: each check refuses an ill-formed term -/

theorem test_cfg0_wf : raw0.wf = true := by decide
theorem test_cfg_dead_zero : ({ raw0 with deadMin := 0 } : RawConfig).wf = false := by decide
theorem test_cfg_dead_not_below_period : ({ raw0 with deadMin := 1000 } : RawConfig).wf = false := by decide
theorem test_cfg_init_below_band : ({ raw0 with periodInit := 999 } : RawConfig).wf = false := by decide
theorem test_cfg_init_above_band : ({ raw0 with periodInit := 50001 } : RawConfig).wf = false := by decide
theorem test_cfg_period_max_too_big : ({ raw0 with periodMax := 2147483648 } : RawConfig).wf = false := by decide
theorem test_cfg_ca_max_one : ({ raw0 with caMax := 1, caInit := 0 } : RawConfig).wf = false := by decide
theorem test_cfg_ca_init_zero : ({ raw0 with caInit := 0 } : RawConfig).wf = false := by decide
theorem test_cfg_ca_init_at_max : ({ raw0 with caInit := 58982 } : RawConfig).wf = false := by decide
theorem test_cfg_pc_init_below : ({ raw0 with pcMin := 1 } : RawConfig).wf = false := by decide
theorem test_cfg_pc_init_above : ({ raw0 with pcMax := 0xFFFF } : RawConfig).wf = false := by decide
theorem test_cfg_lock_count_zero : ({ raw0 with lockCount := 0 } : RawConfig).wf = false := by decide
theorem test_cfg_trip_order : ({ raw0 with tripSus := 1001 } : RawConfig).wf = false := by decide
theorem test_cfg_sus_count_zero : ({ raw0 with susCount := 0 } : RawConfig).wf = false := by decide
theorem test_cfg_fire_max_zero : ({ raw0 with fireMax := 0 } : RawConfig).wf = false := by decide

/-- The frame of `SET_PARAM CA, 16384` (vector B18). -/
def goodFrame : Frame := { sof := 0xA5, cmd := 0x03, len := 0x03, payload := [0x00, 0x00, 0x40], chk := 0x46 }

theorem test_frame_wf : goodFrame.wf = true := by decide
theorem test_frame_sof : ({ goodFrame with sof := 0x5A } : Frame).sofWf = false := by decide
theorem test_frame_len : ({ goodFrame with len := 0x02 } : Frame).lenWf = false := by decide
theorem test_frame_len_nine :
    ({ goodFrame with len := 0x09, payload := [0, 0, 0, 0, 0, 0, 0, 0, 0] } : Frame).lenWf = false := by decide
theorem test_frame_chk : ({ goodFrame with chk := 0x47 } : Frame).chkWf = false := by decide
theorem test_frame_cmd : ({ goodFrame with cmd := 0x06 } : Frame).cmdWf = false := by decide
theorem test_frame_id : ({ goodFrame with payload := [0x02, 0x00, 0x40] } : Frame).idWf = false := by decide

theorem test_range_ca : (Instr.setParamCa 58982).inRange raw0 = false ∧ (Instr.setParamCa 58981).inRange raw0 = true := by decide
theorem test_range_pc : (Instr.setParamPc 20001).inRange raw0 = false ∧ (Instr.setParamPc 0xB1E0).inRange raw0 = true := by decide
theorem test_range_fire : (Instr.firePulse 0).inRange raw0 = false ∧ (Instr.firePulse 60000).inRange raw0 = true := by decide

theorem test_line_wf : (CmdLine.setCa 65536).wf = false ∧ (CmdLine.setCaFraction 10 1).wf = false ∧
    (CmdLine.setPc 32768).wf = false ∧ (CmdLine.setParam 256 0).wf = false ∧ (CmdLine.firePulse 65536).wf = false ∧
    (CmdLine.frame 1 0 [256]).wf = false ∧ (CmdLine.bytes [256]).wf = false := by decide
theorem test_event_line_wf : (EventLine.clock 0 [.cycle, .cycle]).wf = false ∧ (EventLine.clock 0 [.cycle, .sample 1]).wf = true := by
  decide

/-! ## The platform's timestamps (R260) -/

/-- A CYCLE `n` ticks after a rising edge at tick 100. -/
def edgeThenCycle (n : Nat) : Bool :=
  timestampsOk .start [⟨100, 100⟩, ⟨100 + n / 2, 0⟩, ⟨100 + n, 0⟩]
    { s0 with trace :=
        [{ PortIn.idle 100 with edge := some ⟨100, .rising⟩ }, PortIn.idle (BitVec.ofNat 32 (100 + n / 2)),
          { PortIn.idle (BitVec.ofNat 32 (100 + n)) with cycle := true }] }

/-- A CYCLE 2^31 ticks after an edge breaks R260 though the clocks between come closer together; one tick less keeps it. -/
theorem test_timestamps_edge_to_cycle : edgeThenCycle (2 ^ 31) = false ∧ edgeThenCycle (2 ^ 31 - 1) = true := by decide
/-- Idle clocks compare nothing, so they may come any number of ticks apart; they do not go back. -/
theorem test_timestamps_idle : timestampsOk .start [⟨2 ^ 31 + 7, 0⟩] { s0 with trace := [PortIn.idle (2 ^ 31 + 7)] } = true ∧
    timestampsOk { PastTicks.start with now := 10 } [⟨9, 0⟩] { s0 with trace := [PortIn.idle 9] } = false := by decide
/-- A CYCLE 2^31 ticks after the clock of an accepted FIRE_PULSE, and an edge 2^31 ticks after its reference. -/
theorem test_timestamps_pulse_and_edges :
    timestampsOk .start [⟨5, 0⟩, ⟨5 + 2 ^ 31, 0⟩]
      { s0.awaitLastByte (frameBytes 4 2 [0xF4, 0x01]) with
        trace := [PortIn.ofByte 5 0xFB, { PortIn.idle (5 + 2 ^ 31) with cycle := true }] } = false ∧
    timestampsOk .start [⟨5, 5⟩, ⟨5 + 2 ^ 31, 5 + 2 ^ 31⟩]
      { s0 with trace :=
          [{ PortIn.idle 5 with edge := some ⟨5, .rising⟩ },
            { PortIn.idle (5 + 2 ^ 31) with edge := some ⟨5 + 2 ^ 31, .rising⟩ }] } = false := by decide
/-- An edge later than its clock, and one earlier than the edge before it. -/
theorem test_timestamps_edge_order :
    nextClockOk .start ⟨5, 6⟩ { s0 with trace := [{ PortIn.idle 5 with edge := some ⟨6, .rising⟩ }] } = false ∧
    nextClockOk { PastTicks.start with edge := 4 } ⟨5, 3⟩ { s0 with trace := [{ PortIn.idle 5 with edge := some ⟨3, .rising⟩ }] } =
      false := by decide

/-! ## Decoding: each command's frame, written from the spec, and the assembler's bytes -/

theorem test_decode_run : decode [0xA5, 0x01, 0x00, 0x01] = .ok (.run, []) := by decide
theorem test_decode_stop : decode [0xA5, 0x02, 0x00, 0x02] = .ok (.stop, []) := by decide
/-- section 1.6: 58981 = 0xE665, low byte first -/
theorem test_decode_ca : decode [0xA5, 0x03, 0x03, 0x00, 0x65, 0xE6, 0x51] = .ok (.setParamCa 58981, []) := by decide
/-- section 1.6: -20000 = 0xB1E0 -/
theorem test_decode_pc : decode [0xA5, 0x03, 0x03, 0x01, 0xE0, 0xB1, 0x98] = .ok (.setParamPc (BitVec.ofInt 16 (-20000)), []) := by
  decide
/-- B19 -/
theorem test_decode_fire : decode [0xA5, 0x04, 0x02, 0xF4, 0x01, 0xFB] = .ok (.firePulse 500, []) := by decide
theorem test_decode_reset_fault : decode [0xA5, 0x05, 0x00, 0x05] = .ok (.resetFault, []) := by decide
theorem test_table_words : decodeTableWord 32 0xA5010001 = some .run ∧ decodeTableWord 32 0xA5020002 = some .stop ∧
    decodeTableWord 56 0xA503030065E651 = some (.setParamCa 58981) ∧
    decodeTableWord 56 0xA5030301E0B198 = some (.setParamPc 0xB1E0) ∧
    decodeTableWord 48 0xA50402F401FB = some (.firePulse 500) ∧ decodeTableWord 32 0xA5050005 = some .resetFault := by decide
/-- A table row with its checksum bits left 0 is a frame with a wrong checksum. -/
theorem test_table_word_zero_checksum : decodeTableWord 56 0xA5030300000000 = none := by decide
/-- B7, B8, B12, B16, B5 -/
theorem test_rejects : decode [0xA5, 0x01, 0xFF] = .error (.length 255) ∧
    decode [0xA5, 0x06, 0x00, 0x06] = .error (.unknownCmd 6) ∧ decode [0xA5, 0x01, 0x01, 0x00, 0x02] = .error (.lenMismatch 1) ∧
    decode [0xA5, 0x03, 0x03, 0x02, 0x05, 0x00, 0x0D] = .error (.badId 2) ∧
    decode [0xA5, 0x01, 0x00, 0x02] = .error (.checksum 2) := by decide
theorem test_not_a_frame : decode [0x13] = .error (.notSof 0x13) ∧ decode [0xA5, 0x01] = .error .incomplete ∧
    decode [0xA5, 0x03, 0x03, 0x00, 0x52, 0xF8] = .error .incomplete := by decide
/-- section 1.3: the fraction 0.97 is raw 63570; B10: FRAME with any CMD -/
theorem test_assembler : (CmdLine.setCaFraction 97 2).toBytes = [0xA5, 0x03, 0x03, 0x00, 0x52, 0xF8, 0x50] ∧
    (CmdLine.setPc (-100)).toBytes = [0xA5, 0x03, 0x03, 0x01, 0x9C, 0xFF, 0xA2] ∧
    (CmdLine.frame 0xA5 1 [7]).toBytes = [0xA5, 0xA5, 0x01, 0x07, 0xAD] := by decide
/-- 60_exceptions.md R221 -/
theorem test_report_codes :
    [ReportCode.trkRange, .trkTimeout, .protoChecksum, .protoLength, .protoUnknownCmd, .protoLenMismatch, .protoBadId, .protoRange,
      .safetyTripInst, .safetyTripSus].map (fun c => c.toByte.toNat) =
    [0x01, 0x02, 0x10, 0x11, 0x12, 0x13, 0x14, 0x15, 0x20, 0x21] := by decide

/-! ## Commands, one step each: the CHECKSUM byte, everything else of the frame before the parser -/

/-- The first step after `withFetchWord` runs the command (B1). -/
theorem test_run : field (step (s0.withFetchWord 32 0xA5010001)) (fun t => (t.par.run, t.cp.state, t.cp.cmd, t.cp.sum)) =
    some (true, .idle, 1, 1) := by decide
/-- B26 -/
theorem test_run_ends_pulse :
    field (step ({ s0 with par.run := true, pul := ⟨true, 1000, 500⟩ }.withFetchWord 32 0xA5010001)) (fun t => (t.par.run, t.pul)) =
    some (true, ⟨false, 1000, 500⟩) := by decide
/-- B4 -/
theorem test_stop : field (step ({ s0 with prot.latched := true, par.run := true }.withFetchWord 32 0xA5020002))
    (fun t => (t.par.run, t.prot.latched)) = some (false, true) := by decide
/-- section 1.6 -/
theorem test_ca_accepts_below_max : field (step (s0.withFetchWord 56 0xA503030065E651)) (fun t => (t.par.ca, t.cp.errCnt)) =
    some (58981, 0) := by decide
/-- section 1.3 -/
theorem test_ca_rejects_above_max : field (step (s0.withFetchWord 56 0xA503030052F850))
    (fun t => (t.par.ca, t.cp.errCnt, t.out.report)) = some (32768, 1, [⟨.protoRange, 63570⟩]) := by decide
/-- section 1.6 -/
theorem test_pc_negative_bound : field (step (s0.withFetchWord 56 0xA5030301E0B198)) (fun t => t.par.pc.toInt) =
    some (-20000) := by decide
theorem test_pc_rejects_below : field (step (s0.withFetchWord 56 0xA5030301DFB197)) (fun t => (t.par.pc, t.out.report)) =
    some (0, [⟨.protoRange, 45535⟩]) := by decide
/-- B19 -/
theorem test_fire_starts_now : field (step ({ s0 with inp.now := 1000 }.withFetchWord 48 0xA50402F401FB))
    (fun t => (t.par.run, t.pul)) = some (true, ⟨true, 1000, 500⟩) := by decide
/-- B24: the range check comes before the latch check -/
theorem test_fire_zero_latched : field (step ({ s0 with prot.latched := true }.withFetchWord 48 0xA50402000006))
    (fun t => (t.par.run, t.out.report)) = some (false, [⟨.protoRange, 0⟩]) := by decide
/-- S15 -/
theorem test_reset_fault : field (step ({ s0 with prot.latched := true, prot.peak := 3000 }.withFetchWord 32 0xA5050005))
    (fun t => (t.prot.latched, t.prot.peak, t.par.run)) = some (false, 0, false) := by decide
/-- R169: refused above TRIP_SUS -/
theorem test_reset_fault_refused : field (step ({ s0 with prot.latched := true, prot.last := 900 }.withFetchWord 32 0xA5050005))
    (fun t => (t.prot.latched, t.cp.errCnt, t.out.report)) = some (true, 0, []) := by decide

/-! ## The other events -/

/-- section 1.2: trip and CYCLE in one clock; OUT_STATUS 0x0022 -/
theorem test_trip_same_clock :
    field (step (State.present { s0 with par.run := true } [.clock 0 [.sample 1200, .cycle]]))
      (fun t => (t.prot, t.out.report, t.out.edgeSet.active, t.status)) =
    some (⟨true, 1200, 1200, 1, 1⟩, [⟨.safetyTripInst, 1200⟩], false, 0x0022) := by decide
/-- S3, third sample -/
theorem test_sustained_trip : (onSample 950 { s0 with prot.susCnt := 2, prot.peak := 900 }).out.report = [⟨.safetyTripSus, 950⟩] := by
  decide
/-- E2 -/
theorem test_edge_filter : (onEdge 40010 .rising
    { s0 with trk := { s0.trk with have1 := true, seenRising := true, tlastRising := 20000, anyV := true, tAny := 30000 } }).trk =
    { s0.trk with
      have1 := true, seenRising := true, tlastRising := 40010, anyV := true, tAny := 40010
      perr := 10, pacc := 10, lockCnt := 1 } := by decide

/-- The start state of E3. -/
def e3 : State :=
  { s0 with trk := { s0.trk with
      have1 := true, seenFalling := true, seenRising := true, tlastFalling := 100000, tlastRising := 90000, anyV := true
      tAny := 100000, lockCnt := 7, locked := true } }

/-- E3 -/
theorem test_edge_above_band : ((onEdge 210000 .rising e3).trk.period, (onEdge 210000 .rising e3).trk.perr,
    (onEdge 210000 .rising e3).trk.locked, (onEdge 210000 .rising e3).out.report) =
    (15000, 100000, false, [⟨.trkRange, 60000⟩]) := by decide
/-- E4 -/
theorem test_edge_below_band : ((onEdge 91000 .rising e3).trk.period, (onEdge 91000 .rising e3).trk.perr.toInt,
    (onEdge 91000 .rising e3).out.report) = (8875, -19000, [⟨.trkRange, 500⟩]) := by decide

/-- The start state of E11. -/
def e11 : State :=
  { s0 with trk := { s0.trk with
      have1 := true, seenFalling := true, seenRising := true, tlastRising := 10000, anyV := true, tAny := 10000
      lockCnt := 5, locked := true } }

/-- E11, E12: the threshold itself is not below it; the filter rounds down -/
theorem test_edge_lock_threshold : ((onEdge 20050 .falling e11).trk.lockCnt, (onEdge 20050 .falling e11).trk.locked,
    (onEdge 19951 .falling e11).trk.lockCnt, (onEdge 19951 .falling e11).trk.period) = (0, false, 6, 9996) := by decide
/-- E14 -/
theorem test_edge_accumulator_saturates :
    (onEdge 20010 .falling { e11 with trk.pacc := BitVec.ofInt 32 (2 ^ 31 - 5) }).trk.pacc.toInt = 2147483647 := by decide
/-- E17: a timestamp that goes back -/
theorem test_edge_backwards : (onEdge 29990 .falling
    { s0 with trk := { s0.trk with
        have1 := true, seenFalling := true, seenRising := true, tlastFalling := 30000, tlastRising := 20000, anyV := true
        tAny := 30000 } }).out.report = [⟨.trkRange, 2147483643⟩] := by decide
/-- E22 in ANY_EDGE mode -/
theorem test_edge_any_mode : (onEdge 20008 .rising
    { s2 with trk := { s2.trk with have1 := true, seenFalling := true, tlastFalling := 10000, anyV := true, tAny := 10000 } }).trk.perr =
    8 := by decide

/-- 40_pll.md R123's example, with the pulse timer of C24 off. -/
def c1 : State :=
  { s0 with
    par.run := true
    trk := { s0.trk with
      have1 := true, seenFalling := true, seenRising := true, tlastFalling := 40000, tlastRising := 50000, anyV := true
      tAny := 50000, lockCnt := 9, locked := true } }

/-- R123: 2 * TRK_PERIOD is no timeout -/
theorem test_no_timeout : timeoutCheck 70000 c1 = c1 := by decide
/-- C24 -/
theorem test_timeout_and_edge_set : field (onCycle 70001 c1) (fun t => (t.out.report, t.out.edgeSet)) =
    some ([⟨.trkTimeout, 20001⟩], ⟨true, 70001, 10000, true, false, 0, 5000, 0, 5000⟩) := by decide
/-- R148, R149: a shift of -100 wraps to 9900 and the fall wraps past the end -/
theorem test_edge_set_wraps : field (onCycle 0 { s0 with par.run := true, par.pc := 0xFF9C }) (fun t => t.out.edgeSet) =
    some ⟨true, 0, 10000, true, false, 0, 5000, 9900, 4900⟩ := by decide
/-- C17: the dead-time clamp -/
theorem test_dead_time_clamp : field (onCycle 0 { s1 with par.run := true, par.ca := 65000, trk.period := 1000 })
    (fun t => t.out.edgeSet) = some ⟨true, 0, 1000, true, false, 0, 900, 0, 900⟩ := by decide
/-- C19 -/
theorem test_inhibited_cycle : field (onCycle 5000 s0) (fun t => (t.out.edgeSet, t.wgHalf, t.status)) =
    some (⟨true, 5000, 10000, false, false, 0, 0, 0, 0⟩, true, 0x0020) := by decide
/-- C23: the pulse ends across a wrap of IN_NOW -/
theorem test_pulse_wrap : field (onCycle 300 { s0 with par.run := true, pul := ⟨true, 0xFFFFFF38, 500⟩ })
    (fun t => (t.par.run, t.pul.active, t.out.edgeSet.active)) = some (false, false, false) := by decide
/-- B6 at byte 3, B5 at byte 4 -/
theorem test_protocol_errors :
    field (onByte 9 { s0 with cp := { s0.cp with state := .len, cmd := 3, sum := 3 } }) (fun t => (t.cp.state, t.cp.errCnt, t.out.report)) =
      some (.idle, 1, [⟨.protoLength, 9⟩]) ∧
    field (onByte 2 { s0 with cp := { s0.cp with state := .chk, cmd := 1, sum := 1 } }) (fun t => (t.par.run, t.out.report)) =
      some (false, [⟨.protoChecksum, 2⟩]) := by decide
/-- R152: half 1 selects channel 1 of each pair; on = 5000, phase 2 wraps from 9900; an inactive edge set drives nothing -/
theorem test_edge_set_drives :
    let e : EdgeSet := ⟨true, 70, 10000, true, true, 0, 5000, 9900, 4900⟩
    e.drives .one true 5069 ∧ ¬ e.drives .one true 5070 ∧ ¬ e.drives .one false 70 ∧ e.drives .two true 9970 ∧ e.drives .two true 4969 ∧
      ¬ e.drives .two true 4970 ∧ ¬ e.drives .two true 69 ∧ ¬ e.drives .two false 9970 ∧
      ¬ ({ e with active := false } : EdgeSet).drives .one true 70 := by
  unfold EdgeSet.drives EdgeSet.covers EdgeSet.phaseAt EdgeSet.phase1At EdgeSet.phase2At EdgeSet.phase2On
  decide

/-- R250: a reset clock processes no event -/
theorem test_reset_clock : field (step (State.present { s0 with par.run := true, wgHalf := true } [.clock 7 [.reset, .sample 5000, .cycle]]))
    (fun t => (t.par.run, t.prot.latched, t.wgHalf, t.out)) = some (false, false, false, .quiet) := by decide

/-- The first step after reset, under the platform's unknown configuration, runs the command put before it. -/
theorem test_first_step_after_reset : field (step (State.reset.withFetchWord 32 0xA5010001)) (fun t => t.par.run) = some true := by
  decide

/-! ## Witnesses: concrete states and operands that meet the hypotheses of each statement, each clause at a boundary -/

/-- `s0` with the parser at CHECKSUM of a frame, its bytes received. -/
def atChk (cmd len : Byte) (pay : List Byte) : State := { s0.awaitLastByte (frameBytes cmd len pay) with trace := [] }

/-- `s0` with the parser in a given state. -/
def inState (p : ParserState) : State := { s0 with cp.state := p }

/-- `s0` latched, with a last sample. -/
def latchedAt (last : Half) : State := { s0 with prot.latched := true, prot.last := last }

theorem witness_everyDecodedPrefix : decode [0xA5, 0x04, 0x02, 0xFF, 0xFF, 0x04, 0x99] = .ok (.firePulse 0xFFFF, [0x99]) := by decide

theorem witness_decoderAccepts : goodFrame.wf = true ∧ decode (goodFrame.bytes ++ [1]) = .ok (.setParamCa 16384, [1]) := by decide

theorem witness_checksum : [0, 1, 2, 3, 4, 5, 6, 7].length = (8 : Byte).toNat ∧ (8 : Byte).toNat ≤ 8 ∧
    (0x28 : Byte) ≠ checksum 5 8 [0, 1, 2, 3, 4, 5, 6, 7] ∧ (atChk 5 8 [0, 1, 2, 3, 4, 5, 6, 7]).cp.state = .chk ∧
    (0x28 : Byte) ≠ (atChk 5 8 [0, 1, 2, 3, 4, 5, 6, 7]).cp.sum := by decide

theorem witness_reserved : (0 : Byte).toNat = 0 ∧ 6 ≤ (6 : Byte).toNat ∧ 6 ≤ (0xFF : Byte).toNat ∧ ([7] : List Byte).length = (1 : Byte).toNat ∧
    (atChk 6 0 []).cp.state = .chk ∧ (atChk 6 0 []).cp.cmd = 6 ∧ (6 : Byte) = (atChk 6 0 []).cp.sum := by decide

theorem witness_wrongLengths : (atChk 1 1 [0]).cp.state = .chk ∧ (2 : Byte) = (atChk 1 1 [0]).cp.sum ∧ (atChk 1 1 [0]).cp.len.toNat = 1 ∧
    (atChk 3 3 [2, 5, 0]).cp.cmd = 3 ∧ (atChk 3 3 [2, 5, 0]).cp.len = 3 ∧ 2 ≤ ((atChk 3 3 [2, 5, 0]).cp.buf.get 0).toNat := by decide

/-- A clock with every event but a reset, and one with none. -/
theorem witness_everyClock : (s0.nextIs ⟨false, 9, some 1, some ⟨8, .rising⟩, some 1, true⟩).nextClock.inp.reset = false ∧ (s0.nextIs (PortIn.idle 0)).nextClock.inp.reset = false := by decide

theorem witness_stepRuns : ((atChk 1 0 []).nextIs (PortIn.ofByte 9 1)).nextClock.inp.reset = false ∧ (atChk 1 0 []).cp.state = .chk ∧
    ((atChk 1 0 []).nextIs (PortIn.ofByte 9 1)).nextClock.inp.byte = some (atChk 1 0 []).cp.sum ∧
    frameCommand (atChk 1 0 []).cp = .ok .run := by decide

theorem witness_frameOverTheLink : s0.cp.state = .idle ∧ [1, 2, 3].length + 1 = (encode .run).length ∧
    (State.present s0 [.command 4 .run]).trace = List.zipWith PortIn.ofByte ([4, 4, 4] ++ [4]) (encode .run) ++ [] := by decide

theorem witness_parserRecord : ParserConsistent (atChk 5 8 [0, 1, 2, 3, 4, 5, 6, 7]) ∧ (atChk 5 8 [0, 1, 2, 3, 4, 5, 6, 7]).cp.state = .chk ∧
    frameCommand (atChk 5 8 [0, 1, 2, 3, 4, 5, 6, 7]).cp = .error (.lenMismatch 8) ∧ ParserConsistent (atChk 4 2 [0xFF, 0xFF]) ∧
    frameCommand (atChk 4 2 [0xFF, 0xFF]).cp = .ok (.firePulse 0xFFFF) := by
  unfold ParserConsistent; decide

theorem witness_partialFrames : onlyByte ((inState .len).nextIs (PortIn.ofByte 3 9)) 9 ∧ (inState .len).cp.state ≠ .chk ∧
    ∃ t, step ((inState .len).nextIs (PortIn.ofByte 3 9)) = .next t := ⟨rfl, by decide, _, rfl⟩

theorem witness_parserMoves : (∃ t, onByte 0xA5 (inState .idle) = .next t) ∧ (∃ t, onByte 0xA5 (inState .cmd) = .next t) ∧
    (∃ t, onByte 8 (inState .len) = .next t) ∧ (∃ t, onByte 9 (inState .len) = .next t) ∧ (∃ t, onByte 0 (inState .pay) = .next t) ∧
    ∃ t, onByte 0 (inState .chk) = .next t := ⟨⟨_, rfl⟩, ⟨_, rfl⟩, ⟨_, rfl⟩, ⟨_, rfl⟩, ⟨_, rfl⟩, ⟨_, rfl⟩⟩

theorem witness_noise : s0.cp.state = .idle ∧ (0xA4 : Byte) ≠ 0xA5 ∧ (0xA5 : Byte) = 0xA5 := by decide

theorem witness_length : (inState .len).cp.state = .len ∧ 8 < (9 : Byte).toNat ∧ (8 : Byte).toNat ≤ 8 ∧ (0 : Byte).toNat ≤ 8 ∧
    ∃ t, onByte 8 (inState .len) = .next t := ⟨rfl, by decide, by decide, by decide, _, rfl⟩

theorem witness_run : s0.prot.latched = false ∧ (latchedAt 0).prot.latched = true := by decide

theorem witness_stop : s0.par.run = false ∧ s0.pul.active = false := by decide

theorem witness_setCa : 1 ≤ (1 : Half).toNat ∧ (1 : Half).toNat < s0.cfg.caMax.toNat ∧ (58981 : Half).toNat < s0.cfg.caMax.toNat ∧
    (0 : Half).toNat = 0 ∧ s0.cfg.caMax.toNat ≤ (58982 : Half).toNat ∧
    field (Result.andThen (exec (.setParamCa 58981) { s0 with par.run := true }) (onCycle 0)) (fun t => t.out.edgeSet.active) =
      some true := by decide

theorem witness_setPc : s0.cfg.pcMin.toInt ≤ (0xB1E0 : Half).toInt ∧ (20000 : Half).toInt ≤ s0.cfg.pcMax.toInt ∧
    (0xB1DF : Half).toInt < s0.cfg.pcMin.toInt ∧ s0.cfg.pcMax.toInt < (20001 : Half).toInt := by decide

theorem witness_firePulse : 1 ≤ (1 : Half).toNat ∧ (60000 : Half).toNat ≤ s0.cfg.fireMax.toNat ∧ s0.prot.latched = false ∧
    (latchedAt 0).prot.latched = true ∧ (0 : Half).toNat = 0 ∧ s0.cfg.fireMax.toNat < (60001 : Half).toNat ∧
    field (Result.andThen (exec (.firePulse 500) s0) (onCycle 500)) (fun t => t.par.run) = some false ∧
    field (Result.andThen (exec (.firePulse 500) s0) (onCycle 499)) (fun t => t.par.run) = some true := by decide

theorem witness_resetFault : (latchedAt 800).prot.latched = true ∧ (latchedAt 800).prot.last.toNat ≤ s0.cfg.tripSus.toNat ∧
    s0.cfg.tripSus.toNat < (latchedAt 801).prot.last.toNat ∧ s0.prot.latched = false := by decide

theorem witness_commandsLeave : ∃ t, exec (.firePulse 500) s0 = .next t := ⟨_, rfl⟩

theorem witness_onlyOutOfRange : (Instr.setParamCa 1).inRange s0.cfg.toRawConfig = true ∧
    (Instr.setParamCa 0).inRange s0.cfg.toRawConfig = false := by decide

theorem witness_everySample : s0.cfg.tripSus.toNat < (801 : Half).toNat ∧ (800 : Half).toNat ≤ s0.cfg.tripSus.toNat := by decide

theorem witness_trip : s0.prot.latched = false ∧ s0.cfg.tripInst.toNat < (1001 : Half).toNat ∧ ¬ s0.cfg.tripInst.toNat < (1000 : Half).toNat ∧
    s0.cfg.susCount.toNat ≤ ({ s0 with prot.susCnt := 2 } : State).prot.susCnt.toNat + 1 ∧
    ¬ s0.cfg.susCount.toNat ≤ ({ s0 with prot.susCnt := 1 } : State).prot.susCnt.toNat + 1 := by decide

theorem witness_samplesLeave : (latchedAt 0).prot.latched = true := by decide

theorem witness_latchIsSticky :
    field (step ((latchedAt 0).nextIs { PortIn.idle 0 with reset := true })) (fun t => t.prot.latched) = some false ∧
    field (step (({ atChk 5 0 [] with prot.latched := true, prot.last := 800 } : State).nextIs (PortIn.ofByte 0 5)))
      (fun t => t.prot.latched) = some false := by decide

/-- A trip, a RUN frame's last byte and a CYCLE in one clock. -/
def tripClock : State := (atChk 1 0 []).nextIs { PortIn.ofByte 0 1 with sample := some 1001, cycle := true }

theorem witness_tripInhibits : tripClock.nextClock.inp.reset = false ∧ tripClock.nextClock.inp.sample = some 1001 ∧
    tripClock.nextClock.inp.cycle = true ∧ tripClock.prot.latched = false ∧ (onSample 1001 tripClock).prot.latched = true ∧
    ∃ t, step tripClock = .next t := ⟨rfl, rfl, rfl, by decide, by decide, _, rfl⟩

theorem witness_latchedRuns : (latchedAt 0).prot.latched = true ∧ noRelease 1 ((latchedAt 0).nextIs { PortIn.idle 0 with cycle := true }) ∧
    ∃ t, run 1 ((latchedAt 0).nextIs { PortIn.idle 0 with cycle := true }) = .next t :=
  ⟨rfl, ⟨rfl, by decide, fun _ _ => trivial⟩, _, rfl⟩

theorem witness_edgeWithoutReference : s0.cfg.edgeMode = .samePolarity ∧ s2.cfg.edgeMode = .anyEdge ∧
    s0.trk.refEdge s0.cfg.edgeMode .rising = none ∧ s2.trk.refEdge s2.cfg.edgeMode .rising = none ∧
    e11.trk.refEdge e11.cfg.edgeMode .rising = some 10000 := by decide

theorem witness_everyEdgeSeeds : Polarity.rising ≠ Polarity.falling := by decide

/-- The start state of E5: one seed, no measurement yet. -/
def e5 : State := { s0 with trk := { s0.trk with seenRising := true, anyV := true } }

/-- E6, E7: raw 1000 and 50000, the ends of the band -/
theorem witness_firstMeasurement : e5.trk.refEdge e5.cfg.edgeMode .rising = some 0 ∧ e5.trk.have1 = false ∧
    e5.cfg.periodMin.toNat ≤ ((2000 : Word) - 0).toNat / 2 ∧ ((100001 : Word) - 0).toNat / 2 ≤ e5.cfg.periodMax.toNat := by decide

theorem witness_predictedEdge : e11.trk.refEdge e11.cfg.edgeMode .falling = some 0 ∧ e11.trk.have1 = true := by decide

theorem witness_filter : PeriodInBand e11 ∧ e11.trk.refEdge e11.cfg.edgeMode .falling = some 0 ∧ e11.trk.have1 = true := by
  unfold PeriodInBand; decide

/-- E5 to E8: raw 999, 1000, 50000, 50001 -/
theorem witness_outsideTheBand : e5.trk.refEdge e5.cfg.edgeMode .rising = some 0 ∧
    ((1999 : Word) - 0).toNat / 2 < e5.cfg.periodMin.toNat ∧ e5.cfg.periodMin.toNat ≤ ((2001 : Word) - 0).toNat / 2 ∧
    ((100000 : Word) - 0).toNat / 2 ≤ e5.cfg.periodMax.toNat ∧ e5.cfg.periodMax.toNat < ((100002 : Word) - 0).toNat / 2 := by decide

/-- E9, E11: |e| = 49 and 50 -/
theorem witness_lockCounts : e11.trk.refEdge e11.cfg.edgeMode .falling = some 0 ∧ e11.trk.have1 = true ∧
    e11.cfg.periodMin.toNat ≤ ((20049 : Word) - 0).toNat / 2 ∧ ((20050 : Word) - 0).toNat / 2 ≤ e11.cfg.periodMax.toNat ∧
    ((20049 : Word) - (0 + BitVec.ofNat 32 (2 * e11.trk.period.toNat))).toInt.natAbs < e11.cfg.lockThresh.toNat ∧
    e11.cfg.lockThresh.toNat ≤ ((20050 : Word) - (0 + BitVec.ofNat 32 (2 * e11.trk.period.toNat))).toInt.natAbs := by decide

theorem witness_jitter : PeriodInBand e11 ∧ e11.cfg.edgeMode = .samePolarity ∧ e11.trk.refEdge e11.cfg.edgeMode .falling = some 0 ∧
    e11.trk.have1 = true ∧ e11.cfg.periodMin.toNat ≤ 1000 ∧ 50000 ≤ e11.cfg.periodMax.toNat ∧ (-10 : Int).natAbs ≤ 2 * 5 ∧
    2 * ((e11.trk.period.toNat : Int) - 50000).natAbs + 2 * 5 < 2 ^ 31 := by
  unfold PeriodInBand; decide

theorem witness_missingEdge : c1.trk.anyV = true ∧ 2 * c1.trk.period.toNat < ((70001 : Word) - c1.trk.tAny).toNat ∧
    ((70000 : Word) - c1.trk.tAny).toNat ≤ 2 * c1.trk.period.toNat ∧ s0.trk.anyV = false := by decide

/-- `s0` with a pulse of 500 ticks from tick 1000. -/
def pulsing : State := { s0 with par.run := true, pul := ⟨true, 1000, 500⟩ }

theorem witness_inhibitedCycle : (latchedAt 0).prot.latched = true ∧ s0.par.run = false ∧ pulsing.prot.latched = false ∧
    pulsing.par.run = true ∧ pulsing.pul.active = true ∧ pulsing.pul.dur.toNat ≤ ((1500 : Word) - pulsing.pul.start).toNat := by decide

theorem witness_armedCycle : PeriodInBand pulsing ∧ pulsing.prot.latched = false ∧ pulsing.par.run = true ∧
    (pulsing.pul.active = true → ((1499 : Word) - pulsing.pul.start).toNat < pulsing.pul.dur.toNat) := by
  unfold PeriodInBand; decide

theorem witness_deadTime : PeriodInBand pulsing ∧ field (onCycle 1499 pulsing) (fun t => t.out.edgeSet.active) = some true := by
  unfold PeriodInBand; decide

theorem witness_phaseTwo : PeriodInBand pulsing ∧
    9999 < pulsing.trk.period.toNat ∧ field (onCycle 1499 pulsing) (fun t => t.out.edgeSet.active) = some true ∧
    field (onCycle 1500 pulsing) (fun t => t.out.edgeSet.active) = some false := by
  unfold PeriodInBand; decide

theorem witness_pulseEnds : pulsing.pul.active = true ∧ pulsing.pul.dur.toNat ≤ ((1500 : Word) - pulsing.pul.start).toNat ∧
    ((1499 : Word) - pulsing.pul.start).toNat < pulsing.pul.dur.toNat ∧
    field (onCycle 1499 pulsing) (fun t => t.pul.active) = some true := by decide

theorem witness_cyclesLeave : field (onCycle 70001 c1) (fun t => (t.out.report, t.par.run)) = some ([⟨.trkTimeout, 20001⟩], true) ∧
    field (onCycle 1500 pulsing) (fun t => (t.out.report, t.par.run)) = some ([], false) ∧
    pulsing.pul.dur.toNat ≤ ((1500 : Word) - pulsing.pul.start).toNat ∧
    ¬ pulsing.pul.dur.toNat ≤ ((1499 : Word) - pulsing.pul.start).toNat ∧ c1.pul.active = false := by decide

theorem witness_resetClock : ((latchedAt 0).nextIs { PortIn.idle 0 with reset := true }).nextClock.inp.reset = true := by decide

theorem witness_clockWithoutEvent : noEvent (pulsing.nextIs (PortIn.idle 5)) ∧ noEvent pulsing := ⟨rfl, rfl⟩

/-- A clock with a trip, a clamped edge, a wrong CHECKSUM byte and a late CYCLE makes four reports. -/
theorem witness_reports : field (step (Sys2Proof.Machine.State.nextIs { e3 with cp.state := .chk }
      { reset := false, now := 300001, sample := some 1001, edge := some ⟨210000, .rising⟩, byte := some 9, cycle := true }))
    (fun t => t.out.report.map Report.code) = some [.safetyTripInst, .trkRange, .protoChecksum, .trkTimeout] := by decide

theorem witness_everyStepAnswers : ParserConsistent (atChk 4 2 [0xFF, 0xFF]) ∧ PeriodInBand (atChk 4 2 [0xFF, 0xFF]) := by
  unfold ParserConsistent PeriodInBand; decide

theorem witness_keepsPeriod : PeriodInBand (e3.nextIs { PortIn.idle 0 with edge := some ⟨210000, .rising⟩ }) ∧
    field (step (e3.nextIs { PortIn.idle 0 with edge := some ⟨210000, .rising⟩ })) (fun t => t.trk.period) = some 15000 := by
  unfold PeriodInBand; decide

theorem witness_keepsParameters : ParamsInRange ((atChk 3 3 [0, 0x65, 0xE6]).nextIs (PortIn.ofByte 0 0x51)) ∧
    field (step ((atChk 3 3 [0, 0x65, 0xE6]).nextIs (PortIn.ofByte 0 0x51))) (fun t => t.par.ca) = some 58981 := by
  unfold ParamsInRange; decide

theorem witness_keepsParser : ParserConsistent ((atChk 5 8 [0, 1, 2, 3, 4, 5, 6, 7]).nextIs (PortIn.ofByte 0 0x29)) ∧
    field (step ((atChk 5 8 [0, 1, 2, 3, 4, 5, 6, 7]).nextIs (PortIn.ofByte 0 0x29))) (fun t => t.cp.state) = some .idle := by
  unfold ParserConsistent; decide

theorem witness_keepsMonitor : MonitorConsistent (pulsing.nextIs { PortIn.idle 0 with sample := some 1001 }) ∧
    field (step (pulsing.nextIs { PortIn.idle 0 with sample := some 1001 })) (fun t => (t.prot.latched, t.pul.active)) =
      some (true, false) := by
  unfold MonitorConsistent; decide

theorem witness_keepsTracker : TrackerConsistent (e3.nextIs { PortIn.idle 0 with edge := some ⟨210000, .rising⟩ }) ∧
    field (step (e3.nextIs { PortIn.idle 0 with edge := some ⟨210000, .rising⟩ })) (fun t => t.trk.locked) = some false := by
  unfold TrackerConsistent; decide

theorem witness_onlySetParam : ((atChk 3 3 [0, 0x65, 0xE6]).nextIs (PortIn.ofByte 0 0x51)).nextClock.inp.reset = false ∧
    commandOf ((atChk 3 3 [0, 0x65, 0xE6]).nextIs (PortIn.ofByte 0 0x51)) = some (.setParamCa 58981) ∧
    ∃ t, step ((atChk 3 3 [0, 0x65, 0xE6]).nextIs (PortIn.ofByte 0 0x51)) = .next t := ⟨by decide, by decide, _, rfl⟩

theorem witness_onlyRunAndFirePulse : s0.par.run = false ∧ s0.pul.active = false ∧
    field (step ((atChk 4 2 [0xF4, 0x01]).nextIs (PortIn.ofByte 7 0xFB))) (fun t => (t.pul.active, t.pul.start)) = some (true, 7) ∧
    field (step ((atChk 1 0 []).nextIs (PortIn.ofByte 0 1))) (fun t => t.par.run) = some true ∧
    field (step ((atChk 4 2 [0xF4, 0x01]).nextIs (PortIn.ofByte 0 0xFB))) (fun t => t.par.run) = some true := by decide

theorem witness_observedRegisters : e3.eraseObservers = { e3 with trk.locked := false, prot.peak := 77 }.eraseObservers ∧
    e3 ≠ { e3 with trk.locked := false, prot.peak := 77 } := by decide

end Sys2Proof.Tests
end

section
/-! PROOFS. The status word and what arms the output (10_state.md R33, R34, R47). -/

namespace Sys2Proof.Machine

/-! ## The status word (R47) -/

/-- Bits 15:6 of the status word read 0: it is a six-bit word, widened. -/
theorem status_toNat_lt (s : State) : s.status.toNat < 64 := by
  unfold State.status
  rw [BitVec.toNat_setWidth_of_le (by decide)]
  exact BitVec.isLt _

/-- Bits 5:0 of the status word, each by the flag it shows. -/
theorem status_getLsbD (s : State) :
    s.status.getLsbD 0 = s.trk.locked ∧ s.status.getLsbD 1 = s.prot.latched ∧ s.status.getLsbD 2 = s.par.run ∧
    s.status.getLsbD 3 = s.pul.active ∧ s.status.getLsbD 4 = s.trk.have1 ∧ s.status.getLsbD 5 = s.inhibit := by
  simp only [State.status, BitVec.getLsbD_setWidth, BitVec.getLsbD_append, BitVec.getLsbD_ofBool]
  simp

/-- Settles O48: the inhibit line by its definition, bits 5:0 one by one, bits 15:6 by the width of what is widened. -/
theorem statusWordShowsTheFlags : Obligations.StatusWordShowsTheFlags := by
  intro s
  obtain ⟨locked, fault, run, pulse, have1, inhibit⟩ := status_getLsbD s
  exact ⟨rfl, locked, fault, run, pulse, have1, inhibit, status_toNat_lt s⟩

/-! ## What arms the output (R33, R34) -/

/-- Neither PAR_RUN nor PUL_ACTIVE is set on the way from `s` to `t`. -/
structure ArmsNothing (s t : State) : Prop where
  run   : t.par.run = true → s.par.run = true
  pulse : t.pul.active = true → s.pul.active = true

/-- In `t` the output is armed in NORMAL, by the RUN or FIRE_PULSE command of the clock after `s`: RUN leaves no pulse active,
FIRE_PULSE leaves one that starts at the clock's `IN_NOW` and lasts for its operand (43_command.md R189, R194). -/
structure ArmedByCommand (s t : State) : Prop where
  normal  : t.prot.latched = false
  run     : t.par.run = true
  command : (commandOf s = some .run ∧ t.pul.active = false) ∨
    ∃ d, commandOf s = some (.firePulse d) ∧ t.pul = { active := true, start := s.nextClock.inp.now, dur := d }

section

variable {s t u : State}

theorem ArmsNothing.of_eq (hpar : t.par.run = s.par.run) (hpul : t.pul = s.pul) : ArmsNothing s t :=
  ⟨fun h => hpar ▸ h, fun h => hpul ▸ h⟩

theorem ArmsNothing.of_disarmed (hrun : t.par.run = false) (hpulse : t.pul.active = false) : ArmsNothing s t :=
  ⟨fun h => by simp [hrun] at h, fun h => by simp [hpulse] at h⟩

theorem ArmsNothing.trans (h : ArmsNothing s t) (h' : ArmsNothing t u) : ArmsNothing s u :=
  ⟨h.run ∘ h'.run, h.pulse ∘ h'.pulse⟩

/-- A SAMPLE only disarms, and never leaves FAULT_LATCHED (42_protection.md R163, R164, R166). -/
theorem onSample_armsNothing (s : State) (x : Half) :
    ArmsNothing s (onSample x s) ∧ ((onSample x s).prot.latched = false → s.prot.latched = false) := by
  rcases onSample_cases s x with ⟨h, -⟩ | ⟨hn, ⟨-, h⟩ | ⟨-, -, h⟩⟩ <;> rw [h]
  · exact ⟨.of_eq rfl rfl, id⟩
  · exact ⟨.of_disarmed rfl rfl, fun _ => hn⟩
  · exact ⟨.of_disarmed rfl rfl, fun _ => hn⟩

/-- What comes before the BYTE event of a clock arms nothing and never leaves FAULT_LATCHED. -/
theorem beforeByte_armsNothing (s : State) :
    ArmsNothing s s.beforeByte ∧ (s.beforeByte.prot.latched = false → s.prot.latched = false) := by
  have sample : ArmsNothing s (sampleEvent s.nextClock.inp.sample s.nextClock) ∧
      ((sampleEvent s.nextClock.inp.sample s.nextClock).prot.latched = false → s.prot.latched = false) := by
    have clear : ArmsNothing s s.nextClock := .of_eq (by simp) (by simp)
    rcases sampleEvent_cases s.nextClock.inp.sample s.nextClock with h | ⟨x, -, h⟩ <;> rw [h]
    · exact ⟨clear, by simp⟩
    · obtain ⟨harm, hlatch⟩ := onSample_armsNothing s.nextClock x
      exact ⟨clear.trans harm, by simpa using hlatch⟩
  unfold State.beforeByte
  rcases edgeEvent_cases s.nextClock.inp.edge (sampleEvent s.nextClock.inp.sample s.nextClock) with h | ⟨e, -, h⟩ <;> rw [h]
  · exact sample
  · exact ⟨sample.1.trans (.of_eq (by simp) (by simp)), by simpa using sample.2⟩

/-- The BYTE event arms the output only by the command it dispatches, and only when the monitor is in NORMAL before it. -/
theorem byteEvent_arming (hr : s.nextClock.inp.reset = false)
    (h : byteEvent s.nextClock.inp.byte s.beforeByte = .next u) :
    ArmsNothing s.beforeByte u ∨ (s.beforeByte.prot.latched = false ∧ ArmedByCommand s u) := by
  rcases byteEvent_cases h with rfl | ⟨b, hb, h⟩
  · exact .inl (.of_eq rfl rfl)
  rcases onByte_cases _ h with rfl | ⟨code, v, rfl, -⟩ | ⟨i, hchk, rfl, hframe, hexec⟩
  · exact .inl (.of_eq rfl rfl)
  · exact .inl (.of_eq rfl rfl)
  · rw [beforeByte_cp, nextClock_cp] at hchk hb hframe
    have hcmd : commandOf s = some i := commandOf_eq_some.2 ⟨hr, hchk, hb, hframe⟩
    rcases exec_arming _ hexec with ⟨rfl, hn, rfl⟩ | ⟨rfl, rfl⟩ | ⟨d, rfl, -, hn, rfl⟩ | ⟨rfl, -, -, rfl⟩ |
      ⟨r, rfl, -, rfl⟩ | ⟨r, rfl, -, rfl⟩ | ⟨v, rfl⟩ | rfl
    case inl => exact .inr ⟨hn, hn, rfl, .inl ⟨hcmd, rfl⟩⟩
    case inr.inl => exact .inl (.of_disarmed rfl rfl)
    case inr.inr.inl => exact .inr ⟨hn, hn, rfl, .inr ⟨d, hcmd, by simp⟩⟩
    all_goals exact .inl (.of_eq rfl rfl)

/-- The CYCLE event leaves the monitor alone, and what arms the output alone or cleared (41_waveform.md R142). -/
theorem cycleEvent_arming {c : Bool} {now : Word} (h : cycleEvent c now u = .next t) :
    t.prot = u.prot ∧ ((t.par.run = u.par.run ∧ t.pul = u.pul) ∨ (t.par.run = false ∧ t.pul.active = false)) := by
  rcases cycleEvent_cases h with ⟨-, rfl⟩ | ⟨-, rfl⟩
  · exact ⟨rfl, .inl ⟨rfl, rfl⟩⟩
  · refine ⟨by simp, ?_⟩
    rcases pulseExpiry_cases (timeoutCheck now u) now with ⟨-, -, h⟩ | ⟨-, h⟩ <;> simp [h]

/-- Every step arms nothing, or goes from NORMAL to NORMAL and is armed by the command of its clock. -/
theorem step_arming (h : step s = .next t) :
    ArmsNothing s t ∨ (s.prot.latched = false ∧ ArmedByCommand s t) := by
  rcases step_cases h with ⟨-, rfl⟩ | ⟨hr, u, hbyte, hcycle⟩
  · exact .inl (.of_disarmed rfl rfl)
  obtain ⟨hbefore, hlatch⟩ := beforeByte_armsNothing s
  obtain ⟨hprot, ⟨hrun, hpul⟩ | ⟨hrun, hpulse⟩⟩ := cycleEvent_arming hcycle
  · rcases byteEvent_arming hr hbyte with hkeep | ⟨hn, hnormal, harmed, hcmd⟩
    · exact .inl ((hbefore.trans hkeep).trans (.of_eq hrun hpul))
    · exact .inr ⟨hlatch hn, hprot ▸ hnormal, hrun.trans harmed, hpul ▸ hcmd⟩
  · exact .inl (.of_disarmed hrun hpulse)

end

/-- Settles O59, from the two ways a step can end: a step that sets PAR_RUN or PUL_ACTIVE is no step that arms nothing, and RUN leaves no
pulse active. -/
theorem onlyRunAndFirePulseArm : Obligations.OnlyRunAndFirePulseArm := by
  refine ⟨fun s t h hs ht => ?_, fun s t h hs ht => ?_⟩
  · rcases step_arming h with hnone | ⟨hn, hn', -, hcmd⟩
    · simp [hnone.run ht] at hs
    · refine ⟨hn', hn, ?_⟩
      rcases hcmd with ⟨hrun, -⟩ | ⟨d, hfire, hpul⟩
      · exact .inl hrun
      · exact .inr ⟨d, hfire, by simp [hpul]⟩
  · rcases step_arming h with hnone | ⟨hn, hn', harmed, ⟨-, hoff⟩ | ⟨d, hfire, hpul⟩⟩
    · simp [hnone.pulse ht] at hs
    · simp [hoff] at ht
    · exact ⟨hn', hn, harmed, by simp [hpul], by simp [hpul, hfire]⟩

end Sys2Proof.Machine

end

section
/-! PROOFS. Frames and their rejection: the checksum, the 16-bit fields, the reserved CMD codes, the frames the spec prints
(30_encoding.md R85, R86, R91, R98). -/

namespace Sys2Proof

/-! ## The checksum (R85) -/

/-- Adding bytes one after another adds their numbers, modulo 256. -/
theorem foldl_add_toNat (init : Byte) (bytes : List Byte) :
    (bytes.foldl (· + ·) init).toNat = (init.toNat + (bytes.map BitVec.toNat).sum) % 256 := by
  induction bytes generalizing init with
  | nil => simp [Nat.mod_eq_of_lt init.isLt]
  | cons b bytes ih =>
    rw [List.foldl_cons, ih, BitVec.toNat_add, List.map_cons, List.sum_cons]
    omega

theorem checksum_toNat (cmd len : Byte) (pay : List Byte) :
    (checksum cmd len pay).toNat = (cmd.toNat + len.toNat + (pay.map BitVec.toNat).sum) % 256 := by
  rw [checksum, foldl_add_toNat, BitVec.toNat_add]
  omega

/-! ## The decoder on a frame with a correct checksum, and on a word of the opcode table (R98) -/

/-- A frame with a correct checksum decodes as its CMD, LEN and payload say. -/
theorem decode_frameBytes (cmd len : Byte) (pay tail : List Byte) (hlen : pay.length = len.toNat) (h8 : len.toNat ≤ 8) :
    decode (frameBytes cmd len pay ++ tail) =
      (decodeCommand cmd len (pay.getD 0 0) (pay.getD 1 0) (pay.getD 2 0)).map fun i => (i, tail) := by
  have bytes : frameBytes cmd len pay ++ tail = sofByte :: cmd :: len :: (pay ++ checksum cmd len pay :: tail) := by
    simp [frameBytes]
  rw [bytes, decode_frame _ _ _ _ _ hlen h8, if_pos rfl]

/-- No LEN or payload makes a command of a reserved CMD. -/
theorem decodeCommand_reserved {cmd : Byte} (h : cmd.toNat = 0 ∨ 6 ≤ cmd.toNat) (len p0 p1 p2 : Byte) :
    decodeCommand cmd len p0 p1 p2 = .error (.unknownCmd cmd) := by
  have notKnown : ∀ k : Byte, 1 ≤ k.toNat ∧ k.toNat ≤ 5 → cmd ≠ k := by
    rintro k ⟨h1, h5⟩ rfl
    omega
  simp only [decodeCommand, if_neg (notKnown 0x01#8 (by decide)), if_neg (notKnown 0x02#8 (by decide)),
    if_neg (notKnown 0x03#8 (by decide)), if_neg (notKnown 0x04#8 (by decide)), if_neg (notKnown 0x05#8 (by decide))]

/-- A word of the opcode table is the command that its frame decodes to. -/
theorem decodeTableWord_eq_some {nbits w : Nat} {bytes rest : List Byte} {i : Instr} (hframe : tableFrame nbits w = bytes)
    (hdecode : decode bytes = .ok (i, rest)) : decodeTableWord nbits w = some i := by
  simp only [decodeTableWord, hframe, hdecode]

end Sys2Proof

namespace Sys2Proof.Machine

/-! ## The parser in CHK (43_command.md R186) -/

section

variable {s : State} {b : Byte}

/-- The byte consumed in CHK moves the parser to IDLE and writes no other register of it. -/
theorem advance_chk (hs : s.cp.state = .chk) : s.cp.advance b = { s.cp with state := .idle } := by
  simp [Parser.advance, hs]

/-- A byte that differs from the running sum rejects the frame. -/
theorem onByte_wrongChecksum (hs : s.cp.state = .chk) (hb : b ≠ s.cp.sum) :
    onByte b s = .next (rejectFrame (.checksum b) (s.advanceParser b)) := by
  simp only [onByte, hs, if_neg hb]

/-- A matching CHECKSUM byte rejects the frame for what the parser registers spell, when that is no command (R187). -/
theorem onByte_notACommand {r : Reject} (hs : s.cp.state = .chk) (hb : b = s.cp.sum) (hr : frameCommand s.cp = .error r) :
    onByte b s = .next (rejectFrame r (s.advanceParser b)) := by
  have hframe : frameCommand (s.advanceParser b).cp = .error r := by
    rw [advanceParser_cp, advance_chk hs]
    exact hr
  simp only [onByte, hs, if_pos hb, dispatch, hframe]

end

/-! ## The statements -/

/-- Settles O5: the sum by the fold over the payload; `decode` and the parser each by their checksum test. -/
theorem checksumIsTheSumAfterSof : Obligations.ChecksumIsTheSumAfterSof := by
  refine ⟨checksum_toNat, fun cmd len chk pay tail hlen h8 hchk => ?_, fun b s hs hb => ?_⟩
  · rw [decode_frame _ _ _ _ _ hlen h8, if_neg hchk]
  · exact onByte_wrongChecksum hs hb

/-- Settles O7: the decoder and the parser read the command by `decodeCommand`, which has none for a reserved CMD. -/
theorem reservedCommandCodesAreRejected : Obligations.ReservedCommandCodesAreRejected := by
  refine fun c hc => ⟨fun len pay tail hlen h8 => ?_, fun s b hs hcmd hb => ?_⟩
  · rw [decode_frameBytes _ _ _ _ hlen h8, decodeCommand_reserved hc]
    rfl
  · subst hcmd
    refine ⟨_, onByte_notACommand hs hb (decodeCommand_reserved hc _ _ _ _), ?_⟩
    simp [rejectFrame, advance_chk hs]

/-- Settles O6: the operand is `le16 lo hi`, in the payload bytes that CMD (and the id) name. -/
theorem sixteenBitFieldsAreLittleEndian : Obligations.SixteenBitFieldsAreLittleEndian := by
  intro lo hi tail
  refine ⟨le16 lo hi, le16_toNat lo hi, ?_, ?_, ?_⟩
  · exact decode_frameBytes 0x03 3 [0x00, lo, hi] tail rfl (by decide)
  · exact decode_frameBytes 0x03 3 [0x01, lo, hi] tail rfl (by decide)
  · exact decode_frameBytes 0x04 2 [lo, hi] tail rfl (by decide)

/-- Settles O1: the six frames by running `decode`; each of the four words lays out one of them. -/
theorem specFramesDecodeToTheirCommands : Obligations.SpecFramesDecodeToTheirCommands := by
  have run : decode [0xA5, 0x01, 0x00, 0x01] = .ok (.run, []) := by decide
  have stop : decode [0xA5, 0x02, 0x00, 0x02] = .ok (.stop, []) := by decide
  have resetFault : decode [0xA5, 0x05, 0x00, 0x05] = .ok (.resetFault, []) := by decide
  have setCa : decode [0xA5, 0x03, 0x03, 0x00, 0x52, 0xF8, 0x50] = .ok (.setParamCa 63570, []) := by decide
  have setPc : decode [0xA5, 0x03, 0x03, 0x01, 0x9C, 0xFF, 0xA2] = .ok (.setParamPc (BitVec.ofInt 16 (-100)), []) := by decide
  have fire : decode [0xA5, 0x04, 0x02, 0xF4, 0x01, 0xFB] = .ok (.firePulse 500, []) := by decide
  exact ⟨run, stop, resetFault, setCa, setPc, fire, decodeTableWord_eq_some (by decide) run,
    decodeTableWord_eq_some (by decide) stop, decodeTableWord_eq_some (by decide) resetFault,
    decodeTableWord_eq_some (by decide) setCa⟩

end Sys2Proof.Machine

end

section
/-! PROOFS. The edge tracker: the reference edge, the seeds, the range fault and the edge timeout (40_pll.md R112, R119, R121, R123,
R124). -/

namespace Sys2Proof.Machine

/-! ## The seeds of an edge (R121) -/

section

variable (ts : Word) (t : Tracker) {pol other : Polarity}

@[simp] theorem seed_anyV (pol : Polarity) : (t.seed pol ts).anyV = true := by cases pol <;> rfl

@[simp] theorem seed_tAny (pol : Polarity) : (t.seed pol ts).tAny = ts := by cases pol <;> rfl

@[simp] theorem seed_seen_same (pol : Polarity) : (t.seed pol ts).seen pol = true := by cases pol <;> rfl

@[simp] theorem seed_tlast_same (pol : Polarity) : (t.seed pol ts).tlast pol = ts := by cases pol <;> rfl

/-- An edge writes the seed of its own polarity only. -/
theorem seed_of_ne (h : other ≠ pol) :
    (t.seed pol ts).seen other = t.seen other ∧ (t.seed pol ts).tlast other = t.tlast other := by
  cases pol <;> cases other
  case falling.falling | rising.rising => exact absurd rfl h
  case falling.rising | rising.falling => exact ⟨rfl, rfl⟩

end

/-- An edge ends with its seeds, written into a tracker that still holds the seeds from before it. -/
theorem onEdge_trk (s : State) (ts : Word) (pol : Polarity) :
    ∃ t : Tracker, (onEdge ts pol s).trk = t.seed pol ts ∧ ∀ p, t.seen p = s.trk.seen p ∧ t.tlast p = s.trk.tlast p := by
  rcases onEdge_cases s ts pol with ⟨-, h⟩ | ⟨ref, -, h⟩
  · exact ⟨s.trk, by rw [h], fun _ => ⟨rfl, rfl⟩⟩
  · exact ⟨(onMeasurement ts ref s).trk, by rw [h], fun p => onMeasurement_seeds p⟩

/-! ## The range check (R119) -/

section

variable {s : State} {ts ref : Word}

/-- A measurement in the band, its ends included, is no fault. -/
theorem onMeasurement_of_inBand (hmin : s.cfg.periodMin.toNat ≤ (rawHalfPeriod s.cfg.edgeMode ts ref).toNat)
    (hmax : (rawHalfPeriod s.cfg.edgeMode ts ref).toNat ≤ s.cfg.periodMax.toNat) :
    onMeasurement ts ref s = { s with trk := measureEdge s.cfg.toRawConfig ts ref s.trk } := by
  rcases onMeasurement_cases s ts ref with ⟨-, h⟩ | ⟨hclamped, -⟩
  · exact h
  · exact absurd ((clampRaw_eq_iff s.cfg _).2 ⟨hmin, hmax⟩) hclamped

/-- A measurement outside the band ends in a tracking fault and a report of the raw value. -/
theorem onMeasurement_of_outOfBand (hout : (rawHalfPeriod s.cfg.edgeMode ts ref).toNat < s.cfg.periodMin.toNat ∨
      s.cfg.periodMax.toNat < (rawHalfPeriod s.cfg.edgeMode ts ref).toNat) :
    onMeasurement ts ref s = report .trkRange (rawHalfPeriod s.cfg.edgeMode ts ref)
      { s with trk := trackingFault (measureEdge s.cfg.toRawConfig ts ref s.trk) } := by
  rcases onMeasurement_cases s ts ref with ⟨hunclamped, -⟩ | ⟨-, h⟩
  · have := (clampRaw_eq_iff s.cfg _).1 hunclamped
    omega
  · exact h

end

/-! ## The edge timeout (R123) -/

section

variable {s : State} {now : Word}

theorem timeoutCheck_of_late (hv : s.trk.anyV = true) (hlate : 2 * s.trk.period.toNat < (now - s.trk.tAny).toNat) :
    timeoutCheck now s = edgeTimeout (now - s.trk.tAny) s := if_pos ⟨hv, hlate⟩

/-- Without a valid seed, or at most two periods after the last edge, the check changes nothing. -/
theorem timeoutCheck_of_inTime (h : s.trk.anyV = false ∨ (now - s.trk.tAny).toNat ≤ 2 * s.trk.period.toNat) :
    timeoutCheck now s = s := by
  refine if_neg fun ⟨hv, hlate⟩ => ?_
  rcases h with hnone | hle
  · simp [hv] at hnone
  · omega

end

/-! ## The statements -/

/-- Settles O35: the raw half-period as a number decides the range check; neither the seeds nor the measurement itself touch the fault
counter, and the tracking fault comes after the lock update. -/
theorem measurementOutsideTheBandIsAFault : Obligations.MeasurementOutsideTheBandIsAFault := by
  intro s ts ref pol href
  dsimp only
  rw [← rawHalfPeriod_toNat, onEdge_of_ref s href]
  refine ⟨fun hout => ?_, fun hmin hmax => ?_⟩
  · simp [onMeasurement_of_outOfBand hout, measureEdge_faultCnt, satInc_toNat]
  · simp [onMeasurement_of_inBand hmin hmax, measureEdge_faultCnt]

/-- Settles O30: the reference edge by its definition in each mode; without one an edge only seeds. -/
theorem edgeWithoutReferenceOnlySeeds : Obligations.EdgeWithoutReferenceOnlySeeds := by
  refine fun s ts pol => ⟨fun hmode => by rw [hmode]; rfl, fun hmode => by rw [hmode]; rfl, fun hnone => ?_⟩
  rcases onEdge_cases s ts pol with ⟨-, h⟩ | ⟨ref, hsome, -⟩
  · exact h
  · simp [hnone] at hsome

/-- Settles O31: the seeds are the last write of an edge, and a measurement before them leaves the other polarity's alone. -/
theorem everyEdgeSeeds : Obligations.EveryEdgeSeeds := by
  intro s ts pol other
  obtain ⟨t, htrk, hkeep⟩ := onEdge_trk s ts pol
  rw [htrk]
  refine ⟨seed_seen_same ts t pol, seed_tlast_same ts t pol, seed_anyV ts t pol, seed_tAny ts t pol, fun hne => ?_⟩
  obtain ⟨hseen, htlast⟩ := seed_of_ne ts t hne
  obtain ⟨hseen', htlast'⟩ := hkeep other
  exact ⟨hseen.trans hseen', htlast.trans htlast'⟩

/-- Settles O39, from the two ways the check ends: a late CYCLE runs the timeout, any other answers the unchanged state. -/
theorem missingEdgeUnlocksAndHoldsThePeriod : Obligations.MissingEdgeUnlocksAndHoldsThePeriod := by
  intro s now
  exact ⟨timeoutCheck_of_late, timeoutCheck_of_inTime⟩

end Sys2Proof.Machine

end

section
/-! PROOFS. The CYCLE event: its frame, the expiring pulse, the inhibited edge set, the edge times of an armed cycle and the channels they
drive (41_waveform.md R140 to R152). -/

namespace Sys2Proof.Machine

/-! ## The edge timeout and the pulse expiry, the two checks before the edge set is computed (40_pll.md R124, R142) -/

section

variable (s : State) (now : Word)

@[simp] theorem timeoutCheck_tlastFalling : (timeoutCheck now s).trk.tlastFalling = s.trk.tlastFalling := by
  rcases timeoutCheck_cases s now with ⟨-, -, h⟩ | ⟨-, h⟩ <;> simp [h]

@[simp] theorem timeoutCheck_tlastRising : (timeoutCheck now s).trk.tlastRising = s.trk.tlastRising := by
  rcases timeoutCheck_cases s now with ⟨-, -, h⟩ | ⟨-, h⟩ <;> simp [h]

@[simp] theorem timeoutCheck_tAny : (timeoutCheck now s).trk.tAny = s.trk.tAny := by
  rcases timeoutCheck_cases s now with ⟨-, -, h⟩ | ⟨-, h⟩ <;> simp [h]

/-- The edge timeout is the one report its check can make. -/
theorem timeoutCheck_report :
    (timeoutCheck now s).out.report = s.out.report ∨
    ∃ info, (timeoutCheck now s).out.report = s.out.report ++ [⟨.trkTimeout, info⟩] := by
  rcases timeoutCheck_cases s now with ⟨-, -, h⟩ | ⟨-, h⟩
  · exact .inr ⟨_, by rw [h, edgeTimeout_report]⟩
  · exact .inl (by rw [h])

/-- A pulse is running and its duration has elapsed at `now` (R142). -/
def PulseExpired : Prop := s.pul.active = true ∧ s.pul.dur.toNat ≤ (now - s.pul.start).toNat

variable {s now}

theorem pulseExpiry_of_expired (h : PulseExpired s now) :
    pulseExpiry now s = { s with par.run := false, pul.active := false } := if_pos h

theorem pulseExpiry_of_not_expired (h : ¬ PulseExpired s now) : pulseExpiry now s = s := if_neg h

/-- The edge timeout comes before the pulse expiry and does not touch the pulse. -/
theorem pulseExpired_timeoutCheck : PulseExpired (timeoutCheck now s) now ↔ PulseExpired s now := by
  simp [PulseExpired]

end

/-! ## The edge set that a CYCLE emits (R143, R150, R151) -/

section

variable (s : State) (now : Word)

/-- The state a CYCLE emits its edge set from: after both checks. -/
abbrev State.checked : State := pulseExpiry now (timeoutCheck now s)

/-- What makes a CYCLE's edge set the inhibited one: the latch, an unarmed output, or a pulse that ends at this CYCLE. -/
def CycleInhibited : Prop := s.prot.latched = true ∨ s.par.run = false ∨ PulseExpired s now

variable {s now}

theorem checked_of_not_expired (h : ¬ PulseExpired s now) : s.checked now = timeoutCheck now s :=
  pulseExpiry_of_not_expired (mt pulseExpired_timeoutCheck.1 h)

theorem checked_of_expired (h : PulseExpired s now) :
    s.checked now = { timeoutCheck now s with par.run := false, pul.active := false } :=
  pulseExpiry_of_expired (pulseExpired_timeoutCheck.2 h)

theorem checked_inhibit_iff : (s.checked now).inhibit = true ↔ CycleInhibited s now := by
  by_cases h : PulseExpired s now
  · simp [checked_of_expired h, State.inhibit, CycleInhibited, h]
  · simp [checked_of_not_expired h, State.inhibit, CycleInhibited, h]

theorem nextEdgeSet_of_inhibited (h : CycleInhibited s now) :
    nextEdgeSet now (s.checked now) = inhibitedEdgeSet now s.trk.period s.wgHalf := by
  simp [nextEdgeSet, checked_inhibit_iff.2 h]

/-- A CYCLE that is not inhibited ends no pulse, so it computes with the parameters as they stood. -/
theorem nextEdgeSet_of_armed (h : ¬ CycleInhibited s now) :
    nextEdgeSet now (s.checked now) = activeEdgeSet s.cfg.toRawConfig s.par now s.trk.period s.wgHalf := by
  have running : ¬ PulseExpired s now := fun he => h (.inr (.inr he))
  rw [nextEdgeSet, if_neg (mt checked_inhibit_iff.1 h), checked_of_not_expired running]
  simp

/-- `onCycle_next`, for the state after both checks. -/
theorem onCycle_emits {t : State} (h : onCycle now s = .next t) : t = emitEdgeSet now (s.checked now) := onCycle_next s h

theorem onCycle_of_inhibited (h : CycleInhibited s now) : onCycle now s = .next (emitEdgeSet now (s.checked now)) :=
  onCycle_answers s (.inr (checked_inhibit_iff.2 h))

/-- An edge set with `active = 0` drives no channel. -/
theorem EdgeSet.not_drives_of_inactive {e : EdgeSet} (h : e.active = false) (p : Phase) (half : Bool) (tick : Word) :
    ¬ e.drives p half tick := by
  rintro ⟨-, -, hphase⟩
  cases p <;> simp [h, EdgeSet.phaseAt, EdgeSet.phase1At, EdgeSet.phase2At] at hphase

end

/-! ## The edge times of an armed cycle, as numbers (R144 to R149) -/

section

/-- `on` of R145 and R146 on natural numbers, for a period above DEAD_MIN. -/
def State.onTicks (s : State) : Nat :=
  min (min s.par.ca.toNat s.cfg.caMax.toNat * s.trk.period.toNat / 65536) (s.trk.period.toNat - s.cfg.deadMin.toNat)

/-- The edge set of an armed CYCLE at `now`. -/
abbrev State.armedEdgeSet (s : State) (now : Word) : EdgeSet :=
  activeEdgeSet s.cfg.toRawConfig s.par now s.trk.period s.wgHalf

variable {s : State} (now : Word) (hP : PeriodInBand s)

include hP

/-- A period in its band is longer than DEAD_MIN and fits in 31 bits (00_scope.md R5). -/
theorem PeriodInBand.bounds :
    1 ≤ s.cfg.deadMin.toNat ∧ s.cfg.deadMin.toNat < s.trk.period.toNat ∧ s.trk.period.toNat < 2 ^ 31 := by
  obtain ⟨hmin, hmax⟩ := hP
  have := config_periods s.cfg
  omega

theorem onTicks_lt_period : s.onTicks < s.trk.period.toNat := by
  have := hP.bounds
  unfold State.onTicks
  omega

theorem onTime_eq_onTicks : onTime s.cfg.toRawConfig s.par.ca s.trk.period = s.onTicks := by
  have := hP.bounds
  unfold onTime effectiveCa State.onTicks
  omega

/-- A time reduced modulo the period is stored as it is. -/
theorem ofInt_emod_period (x : Int) :
    ((BitVec.ofInt 32 (x % s.trk.period.toNat)).toNat : Int) = x % s.trk.period.toNat := by
  have := hP.bounds
  have := Int.emod_nonneg x (b := s.trk.period.toNat) (by omega)
  have := Int.emod_lt_of_pos x (b := s.trk.period.toNat) (by omega)
  exact ofInt32_toNat (by omega) (by omega)

theorem armedEdgeSet_p1Fall : (s.armedEdgeSet now).p1Fall.toNat = s.onTicks := by
  have := hP.bounds
  have := onTicks_lt_period hP
  have h : ((BitVec.ofInt 32 s.onTicks).toNat : Int) = s.onTicks := ofInt32_toNat (by omega) (by omega)
  simp only [activeEdgeSet, onTime_eq_onTicks hP]
  omega

theorem armedEdgeSet_p2Rise : ((s.armedEdgeSet now).p2Rise.toNat : Int) = s.par.pc.toInt % s.trk.period.toNat := by
  simp only [activeEdgeSet, phaseShift, floorMod_eq, ofInt_emod_period hP]

theorem armedEdgeSet_p2Fall :
    ((s.armedEdgeSet now).p2Fall.toNat : Int) =
      (s.par.pc.toInt % s.trk.period.toNat + s.onTicks) % s.trk.period.toNat := by
  simp only [activeEdgeSet, phaseShift, floorMod_eq, onTime_eq_onTicks hP, ofInt_emod_period hP]

/-- R149: phase 2 is on as long as phase 1. -/
theorem armedEdgeSet_phase2On : (s.armedEdgeSet now).phase2On = s.onTicks := by
  have := onTicks_lt_period hP
  rw [EdgeSet.phase2On, armedEdgeSet_p2Fall now hP, armedEdgeSet_p2Rise now hP]
  calc ((s.par.pc.toInt % s.trk.period.toNat + s.onTicks) % s.trk.period.toNat -
        s.par.pc.toInt % s.trk.period.toNat) % (s.trk.period.toNat : Int)
      = (s.onTicks : Int) % s.trk.period.toNat := by rw [Int.emod_sub_emod, add_sub_cancel_left]
    _ = s.onTicks := Int.emod_eq_of_lt (by omega) (by omega)

/-! ## Where an armed cycle asserts its phases (R152) -/

theorem armedEdgeSet_phase1At (x : Nat) : (s.armedEdgeSet now).phase1At x ↔ x < s.onTicks := by
  rw [EdgeSet.phase1At, armedEdgeSet_p1Fall now hP]
  simp [activeEdgeSet]

theorem armedEdgeSet_phase2At (x : Nat) :
    (s.armedEdgeSet now).phase2At x ↔ ((x : Int) - s.par.pc.toInt) % s.trk.period.toNat < s.onTicks := by
  rw [EdgeSet.phase2At, armedEdgeSet_phase2On now hP, armedEdgeSet_p2Rise now hP]
  simp [activeEdgeSet]

/-- Phase 2 at an offset is phase 1 at the offset less `p2_rise`, wrapped in the window. -/
theorem armedEdgeSet_phase2At_iff_phase1At (x : Nat) :
    (s.armedEdgeSet now).phase2At x ↔
      (s.armedEdgeSet now).phase1At ((x + s.trk.period.toNat - (s.armedEdgeSet now).p2Rise.toNat) % s.trk.period.toNat) := by
  have hrise := armedEdgeSet_p2Rise now hP
  have hlt := Int.emod_lt_of_pos s.par.pc.toInt (b := s.trk.period.toNat) (by have := hP.bounds; omega)
  have hsub : ((x + s.trk.period.toNat - (s.armedEdgeSet now).p2Rise.toNat : Nat) : Int) =
      x - s.par.pc.toInt % s.trk.period.toNat + s.trk.period.toNat := by omega
  rw [armedEdgeSet_phase2At now hP, armedEdgeSet_phase1At now hP, ← Int.ofNat_lt, Int.natCast_mod, hsub, Int.add_emod_right,
    Int.sub_emod_emod]

end

/-- At an offset in its window an edge set drives, of each pair, the channel of its half bit wherever it asserts the phase. -/
theorem EdgeSet.drives_at_offset (e : EdgeSet) (p : Phase) (h : Bool) {x : Nat} (hx : x < e.period.toNat) :
    e.drives p h (e.ref + BitVec.ofNat 32 x) ↔ e.half = h ∧ e.phaseAt p x := by
  have offset : (e.ref + BitVec.ofNat 32 x - e.ref).toNat = x := by
    rw [add_sub_cancel_left, BitVec.toNat_ofNat, Nat.mod_eq_of_lt (hx.trans e.period.isLt)]
  rw [EdgeSet.drives, EdgeSet.covers, offset, and_iff_right hx]

/-! ## The statements -/

/-- Settles O41: in the band the period is positive, so the CYCLE answers; it is not inhibited, and each stored time is its number. -/
theorem armedCycleEmitsTheComputedEdgeSet : Obligations.ArmedCycleEmitsTheComputedEdgeSet := by
  intro s now hP hlatched hrun hrunning
  have armed : ¬ CycleInhibited s now := by
    rintro (hl | hr | ⟨hactive, hlate⟩)
    · simp [hlatched] at hl
    · simp [hrun] at hr
    · exact absurd (hrunning hactive) (by omega)
  have hperiod : s.trk.period ≠ 0#32 := fun h0 => by
    have := hP.bounds
    simp [h0] at this
  refine ⟨_, onCycle_answers s (.inl hperiod), by simp, ?_⟩
  rw [emitEdgeSet_edgeSet, nextEdgeSet_of_armed armed]
  exact ⟨rfl, rfl, rfl, rfl, rfl, rfl, armedEdgeSet_p1Fall now hP, armedEdgeSet_p2Rise now hP, armedEdgeSet_p2Fall now hP⟩

/-- Settles O43: an inhibited edge set asserts nothing; an armed one by where it asserts each phase. -/
theorem phaseTwoIsPhaseOneShifted : Obligations.PhaseTwoIsPhaseOneShifted := by
  intro s t now x hP h P on e hx
  have he : e = nextEdgeSet now (s.checked now) := by simp [e, onCycle_emits h]
  clear_value e
  by_cases hi : CycleInhibited s now
  · have inactive : e.active = false := by rw [he, nextEdgeSet_of_inhibited hi]; rfl
    simp [EdgeSet.phase1At, EdgeSet.phase2At, EdgeSet.not_drives_of_inactive inactive, inactive]
  · rw [nextEdgeSet_of_armed hi] at he
    subst he
    have active : (s.armedEdgeSet now).active = true := rfl
    have drives (p : Phase) (half : Bool) : (s.armedEdgeSet now).drives p half (now + BitVec.ofNat 32 x) ↔
        half = s.wgHalf ∧ (s.armedEdgeSet now).phaseAt p x :=
      ((s.armedEdgeSet now).drives_at_offset p half hx).trans (and_congr_left' eq_comm)
    refine ⟨armedEdgeSet_phase2At_iff_phase1At now hP x, fun half => ?_, fun half => ?_⟩
    · rw [drives, EdgeSet.phaseAt, armedEdgeSet_phase1At now hP, and_iff_right active]
      rfl
    · rw [drives, EdgeSet.phaseAt, armedEdgeSet_phase2At now hP, and_iff_right active]
      rfl

/-- Settles O44: the expiry comes before the edge set, which sees PAR_RUN cleared; only the edge timeout reports. -/
theorem pulseEndsAtTheFirstCycleAfterItsDuration : Obligations.PulseEndsAtTheFirstCycleAfterItsDuration := by
  intro s now hactive
  refine ⟨fun hlate => ?_, fun hearly t h => ?_, fun t h => ?_⟩
  · have expired : PulseExpired s now := ⟨hactive, hlate⟩
    have inhibited : CycleInhibited s now := .inr (.inr expired)
    refine ⟨_, onCycle_of_inhibited inhibited, ?_, ?_, nextEdgeSet_of_inhibited inhibited⟩
    · simp [checked_of_expired expired]
    · simp [checked_of_expired expired]
  · have running : ¬ PulseExpired s now := fun ⟨_, hlate⟩ => by omega
    simp [onCycle_emits h, checked_of_not_expired running]
  · simp [onCycle_emits h]

/-- Settles O45: the fields through the two checks and the emission, one by one. -/
theorem cyclesLeaveEverythingElseUnchanged : Obligations.CyclesLeaveEverythingElseUnchanged := by
  intro s t now h expired
  have hexpired (he : expired) : t.par.run = false ∧ t.pul.active = false := by
    simp [onCycle_emits h, checked_of_expired he]
  have hrunning (he : ¬ expired) : t.par = s.par ∧ t.pul = s.pul := by
    simp [onCycle_emits h, checked_of_not_expired he]
  have hreport := timeoutCheck_report s now
  obtain rfl := onCycle_emits h
  simpa [hreport] using And.intro hexpired hrunning

/-- Settles O40: each cause inhibits the CYCLE, and an inactive edge set drives nothing. -/
theorem inhibitedCycleEmitsTheSafeState : Obligations.InhibitedCycleEmitsTheSafeState := by
  intro s now (h : CycleInhibited s now)
  refine ⟨_, onCycle_of_inhibited h, by simp, nextEdgeSet_of_inhibited h, fun p half tick => ?_⟩
  rw [emitEdgeSet_edgeSet, nextEdgeSet_of_inhibited h]
  exact EdgeSet.not_drives_of_inactive rfl p half tick

end Sys2Proof.Machine

end

section
/-! PROOFS. The current monitor: what a sample records, when it trips, what takes the latch away, and the invariant that ties the latch, the
trip conditions and the pulse together (42_protection.md R161 to R169). -/

namespace Sys2Proof.Machine

/-! ## What a sample records (R161, R162) -/

section

variable (s : State) (x : Half)

theorem recordSample_peak_toNat : (recordSample x s).prot.peak.toNat = max s.prot.peak.toNat x.toNat := by
  simp only [recordSample]
  split <;> omega

theorem recordSample_susCnt_toNat :
    (recordSample x s).prot.susCnt.toNat =
      if s.cfg.tripSus.toNat < x.toNat then min (s.prot.susCnt.toNat + 1) 255 else 0 := by
  simp only [recordSample]
  split
  · exact satInc_toNat s.prot.susCnt
  · rfl

/-- A sample that does not exceed TRIP_SUS clears the sustained counter. -/
theorem recordSample_susCnt_of_le (h : x.toNat ≤ s.cfg.tripSus.toNat) : (recordSample x s).prot.susCnt = 0 :=
  if_neg (by omega)

end

/-! ## When a sample trips (R163) -/

section

theorem tripsInst_iff {c : RawConfig} {x : Half} : tripsInst c x = true ↔ c.tripInst.toNat < x.toNat := decide_eq_true_iff

theorem tripsSus_iff {c : RawConfig} {susCnt : Byte} : tripsSus c susCnt = true ↔ c.susCount.toNat ≤ susCnt.toNat :=
  decide_eq_true_iff

variable {s : State} {x : Half} (hn : s.prot.latched = false)

include hn

theorem onSample_of_tripsInst (hinst : s.cfg.tripInst.toNat < x.toNat) :
    onSample x s = latchEntry .safetyTripInst x (recordSample x s) := by
  simp [onSample, hn, tripsInst_iff.2 hinst]

/-- Only a sample that is no instantaneous trip is reported as a sustained one. -/
theorem onSample_of_tripsSus (hinst : ¬ s.cfg.tripInst.toNat < x.toNat)
    (hsus : s.cfg.susCount.toNat ≤ (recordSample x s).prot.susCnt.toNat) :
    onSample x s = latchEntry .safetyTripSus x (recordSample x s) := by
  simp [onSample, hn, mt tripsInst_iff.1 hinst, tripsSus_iff.2 hsus]

theorem onSample_of_noTrip (hinst : ¬ s.cfg.tripInst.toNat < x.toNat)
    (hsus : ¬ s.cfg.susCount.toNat ≤ (recordSample x s).prot.susCnt.toNat) : onSample x s = recordSample x s := by
  simp [onSample, hn, mt tripsInst_iff.1 hinst, mt tripsSus_iff.1 hsus]

/-- Either trip enters FAULT_LATCHED, with its own report code. -/
theorem onSample_of_trip
    (h : s.cfg.tripInst.toNat < x.toNat ∨ s.cfg.susCount.toNat ≤ (recordSample x s).prot.susCnt.toNat) :
    ∃ code, onSample x s = latchEntry code x (recordSample x s) := by
  by_cases hinst : s.cfg.tripInst.toNat < x.toNat
  · exact ⟨_, onSample_of_tripsInst hn hinst⟩
  · exact ⟨_, onSample_of_tripsSus hn hinst (h.resolve_left hinst)⟩

end

/-! ## What takes the latch away (R166 to R169) -/

section

variable {s t u : State}

theorem resetFault_of_released (hl : s.prot.latched = true) (hlast : s.prot.last.toNat ≤ s.cfg.tripSus.toNat) :
    resetFault s = { s with prot.latched := false, prot.susCnt := 0, prot.peak := 0 } := if_pos ⟨hl, hlast⟩

theorem resetFault_of_refused (h : s.prot.latched = false ∨ s.cfg.tripSus.toNat < s.prot.last.toNat) : resetFault s = s := by
  refine if_neg fun ⟨hl, hlast⟩ => ?_
  rcases h with hn | hlt
  · simp [hl] at hn
  · omega

/-- A command that leaves FAULT_LATCHED is an accepted RESET_FAULT. -/
theorem exec_unlatches {i : Instr} (h : exec i s = .next t) (hs : s.prot.latched = true) (ht : t.prot.latched = false) :
    i = .resetFault ∧ s.prot.last.toNat ≤ s.cfg.tripSus.toNat := by
  rcases exec_arming s h with ⟨-, hn, -⟩ | ⟨-, rfl⟩ | ⟨d, -, -, hn, -⟩ | ⟨hi, -, hlast, -⟩ |
    ⟨r, -, -, rfl⟩ | ⟨r, -, -, rfl⟩ | ⟨v, rfl⟩ | rfl
  case inr.inr.inr.inl => exact ⟨hi, hlast⟩
  case inl | inr.inr.inl => simp [hs] at hn
  all_goals simp [hs] at ht

/-- A BYTE event that leaves FAULT_LATCHED completes the frame of an accepted RESET_FAULT. -/
theorem byteEvent_unlatches (hr : s.nextClock.inp.reset = false) (h : byteEvent s.nextClock.inp.byte s.beforeByte = .next u)
    (hs : s.beforeByte.prot.latched = true) (hu : u.prot.latched = false) :
    commandOf s = some .resetFault ∧ u.prot.last.toNat ≤ s.cfg.tripSus.toNat := by
  rcases byteEvent_cases h with rfl | ⟨b, hb, h⟩
  · simp [hs] at hu
  rcases onByte_cases _ h with rfl | ⟨code, v, rfl, -⟩ | ⟨i, hchk, rfl, hframe, hexec⟩
  · simp [hs] at hu
  · simp [hs] at hu
  · rw [beforeByte_cp, nextClock_cp] at hchk hb hframe
    obtain ⟨rfl, hlast⟩ := exec_unlatches hexec (by simpa using hs) hu
    obtain ⟨-, -, -, -, -, -, -, hkept, -⟩ := exec_keeps _ hexec
    exact ⟨commandOf_eq_some.2 ⟨hr, hchk, hb, hframe⟩, by rw [hkept]; simpa using hlast⟩

end

/-! ## The invariant of the latch, the trip conditions and the pulse -/

section

variable {s t : State}

/-- The invariant reads only the configuration, the monitor, the run flag and the pulse. -/
theorem MonitorConsistent.congr (h : MonitorConsistent s) (hcfg : t.cfg = s.cfg) (hprot : t.prot = s.prot)
    (hrun : t.par.run = s.par.run) (hpul : t.pul = s.pul) : MonitorConsistent t := by
  unfold MonitorConsistent
  rwa [hcfg, hprot, hrun, hpul]

theorem MonitorConsistent.of_latched (hl : s.prot.latched = true) (hrun : s.par.run = false)
    (hpulse : s.pul.active = false) : MonitorConsistent s :=
  ⟨fun _ => ⟨hrun, hpulse⟩, fun hn => by simp [hl] at hn, fun hp => by simp [hpulse] at hp⟩

theorem MonitorConsistent.of_normal (hn : s.prot.latched = false)
    (hquiet : s.prot.last.toNat ≤ s.cfg.tripInst.toNat ∧ s.prot.susCnt.toNat < s.cfg.susCount.toNat)
    (hpulse : s.pul.active = true → s.par.run = true ∧ 1 ≤ s.pul.dur.toNat ∧ s.pul.dur.toNat ≤ s.cfg.fireMax.toNat) :
    MonitorConsistent s :=
  ⟨fun hl => by simp [hn] at hl, fun _ => hquiet, hpulse⟩

/-- Disarming keeps the invariant: STOP and the pulse's expiry. -/
theorem MonitorConsistent.disarm (h : MonitorConsistent s) :
    MonitorConsistent { s with par.run := false, pul.active := false } := by
  obtain ⟨-, hnormal, -⟩ := h
  exact ⟨fun _ => ⟨rfl, rfl⟩, hnormal, fun hp => nomatch hp⟩

/-- Entry into FAULT_LATCHED gives the invariant, whatever state it is entered from. -/
theorem latchEntry_monitorConsistent (code : ReportCode) (x : Half) (s : State) : MonitorConsistent (latchEntry code x s) :=
  .of_latched rfl rfl rfl

/-- The reset registers trip nothing, since SUS_COUNT is at least 1 (00_scope.md R4). -/
theorem resetRegisters_monitorConsistent (s : State) : MonitorConsistent s.resetRegisters := by
  obtain ⟨-, -, hcount, -⟩ := config_limits s.cfg
  exact .of_normal rfl ⟨Nat.zero_le _, hcount⟩ fun hp => nomatch hp

/-- A sample that is only recorded in NORMAL trips nothing; any other in NORMAL latches. -/
theorem MonitorConsistent.onSample (h : MonitorConsistent s) (x : Half) : MonitorConsistent (onSample x s) := by
  obtain ⟨hlatched, -, hpulse⟩ := h
  rcases onSample_cases s x with ⟨e, hquiet⟩ | ⟨-, ⟨-, e⟩ | ⟨-, -, e⟩⟩ <;> rw [e]
  · refine ⟨hlatched, fun hn => ?_, hpulse⟩
    rcases hquiet with hl | ⟨hinst, hsus⟩
    · simp [hl] at hn
    · rw [← Bool.not_eq_true, tripsInst_iff] at hinst
      rw [← Bool.not_eq_true, tripsSus_iff] at hsus
      exact ⟨Nat.le_of_not_lt hinst, Nat.lt_of_not_le hsus⟩
  · exact latchEntry_monitorConsistent _ _ _
  · exact latchEntry_monitorConsistent _ _ _

/-- A released latch trips nothing: the last sample does not exceed TRIP_SUS, which is at most TRIP_INST, and the counter is cleared. -/
theorem MonitorConsistent.release (h : MonitorConsistent s) (hlast : s.prot.last.toNat ≤ s.cfg.tripSus.toNat) :
    MonitorConsistent { s with prot.latched := false, prot.susCnt := 0, prot.peak := 0 } := by
  obtain ⟨-, -, hpulse⟩ := h
  obtain ⟨-, hthresholds, hcount, -⟩ := config_limits s.cfg
  exact .of_normal rfl ⟨hlast.trans hthresholds, hcount⟩ hpulse

theorem MonitorConsistent.exec {i : Instr} (h : MonitorConsistent s) (hexec : exec i s = .next t) : MonitorConsistent t := by
  have ⟨_, hnormal, _⟩ := h
  rcases exec_arming s hexec with ⟨-, hn, rfl⟩ | ⟨-, rfl⟩ | ⟨d, -, hd, hn, rfl⟩ | ⟨-, -, hlast, rfl⟩ |
    ⟨r, -, -, rfl⟩ | ⟨r, -, -, rfl⟩ | ⟨v, rfl⟩ | rfl
  case inl => exact .of_normal hn (hnormal hn) fun hp => nomatch hp
  case inr.inl => exact h.disarm
  case inr.inr.inl =>
    have hdur : 1 ≤ d.toNat ∧ d.toNat ≤ s.cfg.fireMax.toNat := by simpa [fireAccepted] using hd
    exact .of_normal hn (hnormal hn) fun _ => ⟨rfl, hdur⟩
  case inr.inr.inr.inl => exact h.release hlast
  all_goals exact h.congr rfl rfl rfl rfl

theorem MonitorConsistent.onByte {b : Byte} (h : MonitorConsistent s) (hbyte : onByte b s = .next t) : MonitorConsistent t := by
  have hadvance : MonitorConsistent (s.advanceParser b) := h.congr rfl rfl rfl rfl
  rcases onByte_cases s hbyte with rfl | ⟨code, v, rfl, -⟩ | ⟨i, -, -, -, hexec⟩
  · exact hadvance
  · exact hadvance.congr rfl rfl rfl rfl
  · exact hadvance.exec hexec

theorem MonitorConsistent.checked (h : MonitorConsistent s) (now : Word) : MonitorConsistent (s.checked now) := by
  have htimeout : MonitorConsistent (timeoutCheck now s) := h.congr (by simp) (by simp) (by simp) (by simp)
  rcases pulseExpiry_cases (timeoutCheck now s) now with ⟨-, -, e⟩ | ⟨-, e⟩ <;> rw [State.checked, e]
  · exact htimeout.disarm
  · exact htimeout

end

/-! ## The statements -/

/-- Settles O56: the reset registers satisfy the invariant and each event of a clock keeps it. -/
theorem everyStepKeepsTheMonitorConsistent : Obligations.EveryStepKeepsTheMonitorConsistent := by
  intro s t hs hstep
  refine step_keeps MonitorConsistent hs hstep ?clear ?reset ?sample ?edge ?byte ?cycle
  case clear => exact fun u h => h.congr (by simp) (by simp) (by simp) (by simp)
  case reset => exact fun u _ => resetRegisters_monitorConsistent u
  case sample => exact fun u x h => h.onSample x
  case edge => exact fun u ts pol h => h.congr (by simp) (by simp) (by simp) (by simp)
  case byte => exact fun u b v h hbyte => h.onByte hbyte
  case cycle => exact fun u now h => (h.checked now).congr rfl rfl rfl rfl

/-- Settles O25: the counter of the statement is the one the sample leaves, and each of the three ways a sample ends in NORMAL shows in
every register. -/
theorem tripLatchesDisarmsAndReports : Obligations.TripLatchesDisarmsAndReports := by
  intro s x hn
  dsimp only
  rw [← recordSample_susCnt_toNat]
  refine ⟨fun htrip => ?_, fun hinst => ?_, fun hinst hsus => ?_, fun hinst hsus => ?_⟩
  · obtain ⟨code, e⟩ := onSample_of_trip hn htrip
    simp [e, satInc_toNat]
  · simp [onSample_of_tripsInst hn hinst]
  · simp [onSample_of_tripsSus hn hinst hsus]
  · simp [onSample_of_noTrip hn hinst hsus, hn]

/-- Settles O27: SAMPLE and EDGE keep the latch and CYCLE leaves the monitor alone, so the BYTE event is what took it away. -/
theorem latchIsSticky : Obligations.LatchIsSticky := by
  intro s t hstep hs ht
  rcases step_cases hstep with ⟨hr, -⟩ | ⟨hr, u, hbyte, hcycle⟩
  · exact .inl hr
  · obtain ⟨-, hkeep⟩ := beforeByte_armsNothing s
    obtain ⟨hprot, -⟩ := cycleEvent_arming hcycle
    have hbefore : s.beforeByte.prot.latched = true := by
      rw [← Bool.not_eq_false]
      exact fun hn => by simp [hkeep hn] at hs
    rw [hprot] at ht ⊢
    exact .inr (byteEvent_unlatches hr hbyte hbefore ht)

/-- Settles O21: RESET_FAULT is the monitor's release, in its accepted and its refused case. -/
theorem resetFaultClearsOnlyBelowThreshold : Obligations.ResetFaultClearsOnlyBelowThreshold := by
  intro s
  have hexec : exec .resetFault s = .next (resetFault s) := rfl
  rw [hexec]
  refine ⟨fun hl hlast => ?_, fun _ hlast => ?_, fun hn => ?_⟩
  · rw [resetFault_of_released hl hlast]
  · rw [resetFault_of_refused (.inr hlast)]
  · rw [resetFault_of_refused (.inl hn)]

/-- Settles O24: a trip after the recording changes none of the three registers. -/
theorem everySampleIsRecorded : Obligations.EverySampleIsRecorded := by
  intro s x
  refine ⟨onSample_last s x, ?_, fun habove => ?_, fun hbelow => ?_⟩
  · rw [onSample_peak, recordSample_peak_toNat]
  · rw [onSample_susCnt, recordSample_susCnt_toNat, if_pos habove]
  · rw [onSample_susCnt, recordSample_susCnt_of_le s x hbelow]

end Sys2Proof.Machine

end

section
/-! PROOFS. The commands and the parser's bytes in IDLE and LEN (43_command.md R182, R184, R187, R189 to R194). -/

namespace Sys2Proof

/-! ## A known CMD that spells no command (30_encoding.md R92; 43_command.md R187, R193) -/

/-- A known CMD with a LEN that is not its required one. -/
theorem decodeCommand_lenMismatch {cmd len : Byte} (hknown : 1 ≤ cmd.toNat ∧ cmd.toNat ≤ 5)
    (hlen : (cmd.toNat, len.toNat) ∉ requiredLens) (p0 p1 p2 : Byte) :
    decodeCommand cmd len p0 p1 p2 = .error (.lenMismatch len) := by
  have other (k : Byte) (hk : (cmd.toNat, k.toNat) ∈ requiredLens) : len ≠ k := by
    rintro rfl
    exact hlen hk
  have hcmd : cmd = 1#8 ∨ cmd = 2#8 ∨ cmd = 3#8 ∨ cmd = 4#8 ∨ cmd = 5#8 := by bv_omega
  rcases hcmd with rfl | rfl | rfl | rfl | rfl
  · simp [decodeCommand, other 0#8 (by decide)]
  · simp [decodeCommand, other 0#8 (by decide)]
  · simp [decodeCommand, other 3#8 (by decide)]
  · simp [decodeCommand, other 2#8 (by decide)]
  · simp [decodeCommand, other 0#8 (by decide)]

/-- A SET_PARAM frame with an id that no parameter has. -/
theorem decodeCommand_badId {p0 : Byte} (hid : 2 ≤ p0.toNat) (p1 p2 : Byte) :
    decodeCommand 0x03 3 p0 p1 p2 = .error (.badId p0) := by
  have h0 : p0 ≠ 0#8 := by bv_omega
  have h1 : p0 ≠ 1#8 := by bv_omega
  simp [decodeCommand, h0, h1]

end Sys2Proof

namespace Sys2Proof.Machine

/-! ## The parser in IDLE and in LEN (43_command.md R182, R184) -/

section

variable {s : State} {b : Byte}

theorem onByte_idle (hs : s.cp.state = .idle) : onByte b s = .next (s.advanceParser b) := by
  simp only [onByte, hs]

theorem advance_idle_sof (hs : s.cp.state = .idle) : s.cp.advance sofByte = { s.cp with state := .cmd } := by
  simp [Parser.advance, hs]

theorem advance_idle_noise (hs : s.cp.state = .idle) (hb : b ≠ sofByte) : s.cp.advance b = s.cp := by
  simp [Parser.advance, hs, hb]

theorem advance_len (hs : s.cp.state = .len) :
    s.cp.advance b =
      { s.cp with
        len := b
        sum := s.cp.sum + b
        cnt := 0
        state := if maxPayload < b.toNat then .idle else if b = 0#8 then .chk else .pay } := by
  simp only [Parser.advance, hs]

theorem onByte_len_tooLong (hs : s.cp.state = .len) (hb : 8 < b.toNat) :
    onByte b s = .next (protoError .protoLength (zextByte b) (s.advanceParser b)) := by
  simp only [onByte, hs, maxPayload, hb, if_true, rejectFrame]

theorem onByte_len_accepted (hs : s.cp.state = .len) (hb : b.toNat ≤ 8) : onByte b s = .next (s.advanceParser b) := by
  simp only [onByte, hs, maxPayload, hb.not_gt, if_false]

end

/-! ## The commands, one equation per case (43_command.md R189 to R194) -/

section

variable {s : State} {raw d : Half}

theorem exec_run_normal (h : s.prot.latched = false) : exec .run s = .next { s with par.run := true, pul.active := false } := by
  simp only [exec, execRun, h, Bool.false_eq_true, if_false]

theorem exec_run_latched (h : s.prot.latched = true) : exec .run s = .next s := by
  simp only [exec, execRun, h, if_true]

theorem exec_stop : exec .stop s = .next { s with par.run := false, pul.active := false } := rfl

theorem caAccepted_iff {c : RawConfig} : caAccepted c raw = true ↔ 1 ≤ raw.toNat ∧ raw.toNat < c.caMax.toNat := by
  simp [caAccepted]

theorem pcAccepted_iff {c : RawConfig} :
    pcAccepted c raw = true ↔ c.pcMin.toInt ≤ raw.toInt ∧ raw.toInt ≤ c.pcMax.toInt := by
  simp [pcAccepted]

theorem fireAccepted_iff {c : RawConfig} : fireAccepted c d = true ↔ 1 ≤ d.toNat ∧ d.toNat ≤ c.fireMax.toNat := by
  simp [fireAccepted]

theorem exec_setParamCa_stores (h1 : 1 ≤ raw.toNat) (hmax : raw.toNat < s.cfg.caMax.toNat) :
    exec (.setParamCa raw) s = .next { s with par.ca := raw } :=
  congrArg _ (if_pos (caAccepted_iff.2 ⟨h1, hmax⟩))

theorem exec_setParamCa_rejects (h : raw.toNat = 0 ∨ s.cfg.caMax.toNat ≤ raw.toNat) :
    exec (.setParamCa raw) s = .next (protoError .protoRange (zextHalf raw) s) :=
  congrArg _ (if_neg (mt caAccepted_iff.1 (by omega)))

theorem exec_setParamPc_stores (hmin : s.cfg.pcMin.toInt ≤ raw.toInt) (hmax : raw.toInt ≤ s.cfg.pcMax.toInt) :
    exec (.setParamPc raw) s = .next { s with par.pc := raw } :=
  congrArg _ (if_pos (pcAccepted_iff.2 ⟨hmin, hmax⟩))

theorem exec_setParamPc_rejects (h : raw.toInt < s.cfg.pcMin.toInt ∨ s.cfg.pcMax.toInt < raw.toInt) :
    exec (.setParamPc raw) s = .next (protoError .protoRange (zextHalf raw) s) :=
  congrArg _ (if_neg (mt pcAccepted_iff.1 (by omega)))

theorem exec_firePulse_arms (h1 : 1 ≤ d.toNat) (hmax : d.toNat ≤ s.cfg.fireMax.toNat) (hn : s.prot.latched = false) :
    exec (.firePulse d) s = .next { s with par.run := true, pul := { active := true, start := s.inp.now, dur := d } } := by
  simp [exec, execFirePulse, fireAccepted_iff.2 ⟨h1, hmax⟩, hn]

theorem exec_firePulse_latched (h1 : 1 ≤ d.toNat) (hmax : d.toNat ≤ s.cfg.fireMax.toNat) (hl : s.prot.latched = true) :
    exec (.firePulse d) s = .next s := by
  simp [exec, execFirePulse, fireAccepted_iff.2 ⟨h1, hmax⟩, hl]

theorem exec_firePulse_rejects (h : d.toNat = 0 ∨ s.cfg.fireMax.toNat < d.toNat) :
    exec (.firePulse d) s = .next (protoError .protoRange (zextHalf d) s) :=
  congrArg _ (if_neg (mt fireAccepted_iff.1 (by omega)))

end

/-! ## The CYCLE after a command (41_waveform.md R142, R143, R147) -/

section

variable {s t : State} {now : Word}

/-- An active edge set is the armed one, computed from the state the CYCLE found. -/
theorem onCycle_edgeSet_of_active (h : onCycle now s = .next t) (hactive : t.out.edgeSet.active = true) :
    t.out.edgeSet = s.armedEdgeSet now := by
  rw [onCycle_emits h, emitEdgeSet_edgeSet] at hactive ⊢
  by_cases hi : CycleInhibited s now
  · rw [nextEdgeSet_of_inhibited hi] at hactive
    simp [inhibitedEdgeSet, EdgeSet.none] at hactive
  · exact nextEdgeSet_of_armed hi

/-- With a pulse armed, a CYCLE leaves the output armed and the pulse running exactly while the duration has not elapsed. -/
theorem onCycle_pulse (h : onCycle now s = .next t) (hrun : s.par.run = true) (hactive : s.pul.active = true) :
    t.par.run = decide ((now - s.pul.start).toNat < s.pul.dur.toNat) ∧
    t.pul.active = decide ((now - s.pul.start).toNat < s.pul.dur.toNat) := by
  obtain rfl := onCycle_emits h
  rw [emitEdgeSet_par, emitEdgeSet_pul]
  by_cases he : PulseExpired s now
  · rw [checked_of_expired he, decide_eq_false he.2.not_gt]
    exact ⟨rfl, rfl⟩
  · have early : (now - s.pul.start).toNat < s.pul.dur.toNat := by
      by_contra hlate
      exact he ⟨hactive, by omega⟩
    rw [checked_of_not_expired he, timeoutCheck_par, timeoutCheck_pul, decide_eq_true early]
    exact ⟨hrun, hactive⟩

end

/-! ## The statements -/

/-- Settles O8: the parser reads the command by `decodeCommand`, which rejects a wrong LEN of a known CMD and a reserved id. -/
theorem wrongLengthsAndReservedIdsAreRejected : Obligations.WrongLengthsAndReservedIdsAreRejected := by
  refine fun s b hs hb => ⟨?_, fun hcmd hlen hid => ?_⟩
  · by_cases hreq : (s.cp.cmd.toNat, s.cp.len.toNat) ∈ requiredLens
    · exact .inl hreq
    by_cases hknown : 1 ≤ s.cp.cmd.toNat ∧ s.cp.cmd.toNat ≤ 5
    · exact .inr (.inr (.inr (onByte_notACommand hs hb (decodeCommand_lenMismatch hknown hreq _ _ _))))
    · have reserved : s.cp.cmd.toNat = 0 ∨ 6 ≤ s.cp.cmd.toNat := by omega
      exact .inr (reserved.imp_right .inl)
  · refine onByte_notACommand hs hb (r := .badId _) ?_
    rw [frameCommand, hcmd, hlen, decodeCommand_badId hid]

/-- Settles O14: a byte in IDLE is the parser's own movement, which only SOF makes. -/
theorem noiseInIdleIsDiscarded : Obligations.NoiseInIdleIsDiscarded := by
  refine fun s b hs => ⟨fun hb => ?_, fun hb => ?_⟩
  · rw [onByte_idle hs, State.advanceParser, advance_idle_noise hs hb]
  · obtain rfl : b = sofByte := hb
    rw [onByte_idle hs, State.advanceParser, advance_idle_sof hs]

/-- Settles O15: the registers that LEN writes, beside one protocol error exactly when it is above 8. -/
theorem lengthAboveEightIsRejectedAtOnce : Obligations.LengthAboveEightIsRejectedAtOnce := by
  refine fun s b hs => ⟨fun hb => ?_, fun hb => ?_, fun t h => ?_⟩
  · refine ⟨_, onByte_len_tooLong hs hb, ?_⟩
    simp [advance_len hs, maxPayload, hb]
  · refine ⟨_, onByte_len_accepted hs hb, ?_⟩
    simp [advance_len hs, maxPayload, hb.not_gt]
  · obtain ⟨-, -, -, -, -, -, hcp, -, -⟩ := onByte_keeps s h
    rw [hcp, advance_len hs]
    exact ⟨rfl, rfl, rfl⟩

/-- Settles O16: RUN by the latch. -/
theorem runArmsUnlessLatched : Obligations.RunArmsUnlessLatched := by
  obtain ⟨hdecode, -⟩ := specFramesDecodeToTheirCommands
  exact ⟨hdecode, fun s => ⟨exec_run_normal, exec_run_latched⟩⟩

/-- Settles O17: STOP clears the run flag in every state, and a CYCLE is inhibited without it. -/
theorem stopIsAlwaysHonoured : Obligations.StopIsAlwaysHonoured := by
  obtain ⟨-, hdecode, -⟩ := specFramesDecodeToTheirCommands
  refine ⟨hdecode, fun s => ⟨exec_stop, fun hrun hactive => ?_, fun now => ?_⟩⟩
  · have hpar : { s.par with run := false } = s.par := by rw [← hrun]
    have hpul : { s.pul with active := false } = s.pul := by rw [← hactive]
    rw [exec_stop, hpar, hpul]
  · have inhibited : CycleInhibited { s with par.run := false, pul.active := false } now := .inr (.inl rfl)
    refine ⟨_, onCycle_of_inhibited inhibited, ?_⟩
    rw [emitEdgeSet_edgeSet, nextEdgeSet_of_inhibited inhibited]
    rfl

/-- Settles O18: SET_PARAM.CA by its range; an active edge set has the on-time of the state that the command left. -/
theorem setConductionAngleStoresOrRejects : Obligations.SetConductionAngleStoresOrRejects := by
  refine ⟨fun lo hi => decode_frameBytes 0x03 3 [0x00, lo, hi] [] rfl (by decide), fun s raw => ⟨?_, ?_, ?_⟩⟩
  · intro h1 hmax now t h hactive
    rw [exec_setParamCa_stores h1 hmax] at h
    rw [onCycle_edgeSet_of_active h hactive]
    rfl
  · exact exec_setParamCa_stores
  · exact exec_setParamCa_rejects

/-- Settles O19: SET_PARAM.PC by the range of its signed operand. -/
theorem setPhaseCompensationStoresOrRejects : Obligations.SetPhaseCompensationStoresOrRejects :=
  ⟨fun lo hi => decode_frameBytes 0x03 3 [0x01, lo, hi] [] rfl (by decide),
    fun _ _ => ⟨exec_setParamPc_stores, exec_setParamPc_rejects⟩⟩

/-- Settles O20: FIRE_PULSE by its range and then by the latch; the CYCLE after it sees the pulse that it armed. -/
theorem firePulseArmsOneBoundedPulse : Obligations.FirePulseArmsOneBoundedPulse := by
  refine ⟨fun lo hi => decode_frameBytes 0x04 2 [lo, hi] [] rfl (by decide), fun s d => ?_⟩
  refine ⟨fun h1 hmax hn now t h => ?_, exec_firePulse_arms, exec_firePulse_latched, exec_firePulse_rejects⟩
  rw [exec_firePulse_arms h1 hmax hn] at h
  exact onCycle_pulse h rfl rfl

end Sys2Proof.Machine

end

section
/-! PROOFS. The reset clock (70_reset_and_hazards.md R250, R251). -/

namespace Sys2Proof.Machine

/-- Settles O46: a reset clock resets the registers of the clock's own start, whose configuration is the state's and whose outputs are
already cleared. -/
theorem resetClockGivesEveryRegisterItsResetValue : Obligations.ResetClockGivesEveryRegisterItsResetValue := by
  intro s hreset
  refine ⟨s.nextClock.resetRegisters, step_of_reset hreset, nextClock_cfg s, ?edgeSet, ?report, ?trk, ?par, rfl, rfl, rfl, rfl⟩
  case edgeSet => rw [resetRegisters_out, nextClock_out]; rfl
  case report => rw [resetRegisters_out, nextClock_out]; rfl
  case trk => rw [resetRegisters_trk, nextClock_cfg]; rfl
  case par => rw [resetRegisters_par, nextClock_cfg]; rfl

end Sys2Proof.Machine

end

section
/-! PROOFS. The decoder and the encoder are inverse to each other, and the decoder accepts exactly the well-formed frames
(30_encoding.md R81 to R98). -/

namespace Sys2Proof

section

variable {cmd len p0 p1 p2 : Byte} {bs pay rest tail : List Byte} {i : Instr} {f : Frame}

/-! ## What the encoder writes (R95) -/

/-- The frame of a command carries a payload of at most 8 bytes that LEN counts, and its fields spell the command. -/
theorem encode_spells (i : Instr) :
    ∃ (cmd len : Byte) (pay : List Byte), encode i = frameBytes cmd len pay ∧ pay.length = len.toNat ∧ len.toNat ≤ 8 ∧
      decodeCommand cmd len (pay.getD 0 0) (pay.getD 1 0) (pay.getD 2 0) = .ok i := by
  cases i with
  | run => exact ⟨0x01, 0, [], rfl, rfl, by decide, rfl⟩
  | stop => exact ⟨0x02, 0, [], rfl, rfl, by decide, rfl⟩
  | setParamCa raw =>
    exact ⟨0x03, 3, [0x00, loByte raw, hiByte raw], rfl, rfl, by decide, by simp [decodeCommand, le16_loByte_hiByte]⟩
  | setParamPc raw =>
    exact ⟨0x03, 3, [0x01, loByte raw, hiByte raw], rfl, rfl, by decide, by simp [decodeCommand, le16_loByte_hiByte]⟩
  | firePulse d => exact ⟨0x04, 2, [loByte d, hiByte d], rfl, rfl, by decide, by simp [decodeCommand, le16_loByte_hiByte]⟩
  | resetFault => exact ⟨0x05, 0, [], rfl, rfl, by decide, rfl⟩

/-- Fields that spell a command are the fields its encoding carries. -/
theorem frameBytes_eq_encode (hlen : pay.length = len.toNat)
    (h : decodeCommand cmd len (pay.getD 0 0) (pay.getD 1 0) (pay.getD 2 0) = .ok i) : frameBytes cmd len pay = encode i := by
  rcases decodeCommand_eq_ok h with ⟨rfl, rfl, rfl⟩ | ⟨rfl, rfl, rfl⟩ | ⟨rfl, rfl, h0, rfl⟩ | ⟨rfl, rfl, h0, rfl⟩ |
    ⟨rfl, rfl, rfl⟩ | ⟨rfl, rfl, rfl⟩
  case inr.inr.inl | inr.inr.inr.inl =>
    obtain ⟨id, lo, hi, rfl⟩ := List.length_eq_three.1 hlen
    obtain rfl : id = _ := h0
    simp only [encode, List.getD_cons_succ, List.getD_cons_zero, loByte_le16, hiByte_le16]
    rfl
  case inr.inr.inr.inr.inl =>
    obtain ⟨lo, hi, rfl⟩ := List.length_eq_two.1 hlen
    simp only [encode, List.getD_cons_succ, List.getD_cons_zero, loByte_le16, hiByte_le16]
    rfl
  all_goals
    obtain rfl := List.length_eq_zero_iff.1 hlen
    rfl

/-! ## What the decoder accepts (R81 to R85) -/

/-- What decodes is laid out as a frame: SOF, CMD, a LEN of at most 8, that many payload bytes, one more byte, and the bytes left over. -/
theorem eq_frame_of_decode_eq_ok (h : decode bs = .ok (i, rest)) :
    ∃ (cmd len : Byte) (pay : List Byte) (chk : Byte) (tail : List Byte),
      bs = sofByte :: cmd :: len :: (pay ++ chk :: tail) ∧ pay.length = len.toNat ∧ len.toNat ≤ 8 := by
  unfold decode at h
  split at h
  case h_2 => split at h <;> cases h
  case h_3 => cases h
  case h_1 sof cmd len body =>
    by_cases hsof : sof = sofByte
    case neg => simp [hsof] at h
    by_cases h8 : maxPayload < len.toNat
    case pos => simp [hsof, h8] at h
    cases hdrop : body.drop len.toNat with
    | nil => simp [hsof, h8, decodeBody, hdrop] at h
    | cons chk tail =>
      refine ⟨cmd, len, body.take len.toNat, chk, tail, ?_, ?_, Nat.le_of_not_lt h8⟩
      · rw [hsof, ← hdrop, List.take_append_drop]
      · have := congrArg List.length hdrop
        rw [List.length_drop, List.length_cons] at this
        exact List.length_take_of_le (by omega)

/-- A byte sequence decodes exactly when it opens with a frame, of a payload that LEN counts and of the right checksum, whose fields spell
the command. -/
theorem decode_eq_ok_iff :
    decode bs = .ok (i, rest) ↔
      ∃ (cmd len : Byte) (pay : List Byte), bs = frameBytes cmd len pay ++ rest ∧ pay.length = len.toNat ∧ len.toNat ≤ 8 ∧
        decodeCommand cmd len (pay.getD 0 0) (pay.getD 1 0) (pay.getD 2 0) = .ok i := by
  constructor
  · intro h
    obtain ⟨cmd, len, pay, chk, tail, rfl, hlen, h8⟩ := eq_frame_of_decode_eq_ok h
    rw [decode_frame _ _ _ _ _ hlen h8] at h
    split at h
    case isFalse => cases h
    case isTrue hchk =>
      cases hj : decodeCommand cmd len (pay.getD 0 0) (pay.getD 1 0) (pay.getD 2 0) with
      | error r =>
        rw [hj] at h
        cases h
      | ok j =>
        rw [hj] at h
        cases h
        exact ⟨cmd, len, pay, by simp [frameBytes, hchk], hlen, h8, hj⟩
  · rintro ⟨cmd, len, pay, rfl, hlen, h8, h⟩
    rw [decode_frameBytes _ _ _ _ hlen h8, h]
    rfl

/-! ## Which fields spell a command (R83, R87, R91, R92) -/

/-- A frame has the bytes of `frameBytes` exactly when its fields are those and its checksum is the sum. -/
theorem bytes_eq_frameBytes_iff :
    f.bytes = frameBytes cmd len pay ↔
      f.sof = sofByte ∧ f.cmd = cmd ∧ f.len = len ∧ f.payload = pay ∧ f.chk = checksum cmd len pay := by
  simp [Frame.bytes, frameBytes]

/-- Fields spell a command exactly when CMD and LEN stand in the command table and a SET_PARAM carries a known id. -/
theorem decodeCommand_ok_iff :
    (∃ i, decodeCommand cmd len p0 p1 p2 = .ok i) ↔
      (cmd.toNat, len.toNat) ∈ requiredLens ∧ (cmd = 3#8 → p0 = 0#8 ∨ p0 = 1#8) := by
  constructor
  · rintro ⟨i, h⟩
    rcases decodeCommand_eq_ok h with ⟨rfl, rfl, -⟩ | ⟨rfl, rfl, -⟩ | ⟨rfl, rfl, rfl, -⟩ | ⟨rfl, rfl, rfl, -⟩ |
      ⟨rfl, rfl, -⟩ | ⟨rfl, rfl, -⟩ <;> simp [requiredLens]
  · rintro ⟨hreq, hid⟩
    have hfields : (cmd = 1#8 ∧ len = 0#8) ∨ (cmd = 2#8 ∧ len = 0#8) ∨ (cmd = 3#8 ∧ len = 3#8) ∨ (cmd = 4#8 ∧ len = 2#8) ∨
        (cmd = 5#8 ∧ len = 0#8) := by
      simp only [requiredLens, List.mem_cons, Prod.mk.injEq, List.not_mem_nil, or_false] at hreq
      bv_omega
    rcases hfields with ⟨rfl, rfl⟩ | ⟨rfl, rfl⟩ | ⟨rfl, rfl⟩ | ⟨rfl, rfl⟩ | ⟨rfl, rfl⟩
    case inr.inr.inl =>
      rcases hid rfl with rfl | rfl
      · exact ⟨.setParamCa (le16 p1 p2), rfl⟩
      · exact ⟨.setParamPc (le16 p1 p2), rfl⟩
    case inr.inr.inr.inl => exact ⟨.firePulse (le16 p0 p1), rfl⟩
    all_goals exact ⟨_, rfl⟩

theorem lenWf_iff : f.lenWf = true ↔ f.payload.length = f.len.toNat ∧ f.len.toNat ≤ 8 := by
  simp [Frame.lenWf]

theorem chkWf_iff : f.chkWf = true ↔ f.chk = checksum f.cmd f.len f.payload := by
  rw [Frame.chkWf, decide_eq_true_iff, ← checksum_toNat, BitVec.toNat_inj]

/-- The rules on CMD, LEN and the id are those by which the fields spell a command. -/
theorem cmdWf_idWf_iff (hlen : f.payload.length = f.len.toNat) :
    f.cmdWf = true ∧ f.idWf = true ↔
      ∃ i, decodeCommand f.cmd f.len (f.payload.getD 0 0) (f.payload.getD 1 0) (f.payload.getD 2 0) = .ok i := by
  rw [decodeCommand_ok_iff, Frame.cmdWf, List.contains_iff_mem]
  refine and_congr_right fun hreq => ?_
  by_cases hcmd : f.cmd = 3#8
  case neg => simp [Frame.idWf, hcmd]
  case pos =>
    have h3 : f.len.toNat = 3 := by simpa [requiredLens, hcmd] using hreq
    obtain ⟨id, lo, hi, hpay⟩ := List.length_eq_three.1 (hlen.trans h3)
    simp [Frame.idWf, hcmd, hpay]

end

/-! ## The statements -/

/-- Settles O2: the encoding is a frame whose fields spell the command, and such a frame decodes to it. -/
theorem decodeOfEncodeGivesTheCommandBack : Obligations.DecodeOfEncodeGivesTheCommandBack := by
  intro i rest
  obtain ⟨cmd, len, pay, hbytes, hlen, h8, hcommand⟩ := encode_spells i
  exact decode_eq_ok_iff.2 ⟨cmd, len, pay, by rw [hbytes], hlen, h8, hcommand⟩

/-- Settles O3: what decodes opens with a frame whose fields spell the command, and only the encoding is one. -/
theorem everyDecodedPrefixIsTheEncoding : Obligations.EveryDecodedPrefixIsTheEncoding := by
  intro bs rest i h
  obtain ⟨cmd, len, pay, rfl, hlen, -, hcommand⟩ := decode_eq_ok_iff.1 h
  rw [frameBytes_eq_encode hlen hcommand]

/-- Settles O4: the decoder's frame has the five fields' bytes exactly when its fields are those five. -/
theorem decoderAcceptsExactlyWellFormedFrames : Obligations.DecoderAcceptsExactlyWellFormedFrames := by
  intro f tail
  simp only [Frame.wf, Bool.and_eq_true, lenWf_iff, chkWf_iff, Frame.sofWf, beq_iff_eq]
  constructor
  · rintro ⟨i, h⟩
    obtain ⟨cmd, len, pay, hbytes, hlen, h8, hcommand⟩ := decode_eq_ok_iff.1 h
    obtain ⟨hsof, rfl, rfl, rfl, hchk⟩ := bytes_eq_frameBytes_iff.1 (List.append_cancel_right hbytes)
    obtain ⟨hcmd, hid⟩ := (cmdWf_idWf_iff hlen).2 ⟨i, hcommand⟩
    exact ⟨⟨⟨⟨hsof, hlen, h8⟩, hchk⟩, hcmd⟩, hid⟩
  · rintro ⟨⟨⟨⟨hsof, hlen, h8⟩, hchk⟩, hcmd⟩, hid⟩
    obtain ⟨i, hcommand⟩ := (cmdWf_idWf_iff hlen).1 ⟨hcmd, hid⟩
    have hbytes : f.bytes = frameBytes f.cmd f.len f.payload := bytes_eq_frameBytes_iff.2 ⟨hsof, rfl, rfl, rfl, hchk⟩
    exact ⟨i, decode_eq_ok_iff.2 ⟨f.cmd, f.len, f.payload, by rw [hbytes], hlen, h8, hcommand⟩⟩

end Sys2Proof

end

section
/-! PROOFS. The edge tracker: what a measurement writes, its two invariants, and the frame of EDGE (40_pll.md R113 to R127). -/

namespace Sys2Proof.Machine

/-! ## What a measurement writes (R114 to R118, R120) -/

section

variable {c : RawConfig} {ts ref : Word} {t : Tracker}

theorem ofInt_sub_ofNat (x : Int) (n : Nat) : BitVec.ofInt 32 x - BitVec.ofNat 32 n = BitVec.ofInt 32 (x - n) := by
  rw [Int.sub_eq_add_neg, BitVec.ofInt_add, BitVec.ofInt_neg, BitVec.ofInt_natCast, BitVec.sub_eq_add_neg]

theorem phaseError_eq (m : EdgeMode) (ts ref p : Word) :
    phaseError m ts ref p = ts - (ref + BitVec.ofNat 32 ((if m = .samePolarity then 2 else 1) * p.toNat)) := by
  rw [phaseError, halfPeriods_eq]

/-- The first measurement writes the period and `TRK_HAVE` only. -/
theorem measureEdge_first (h : t.have1 = false) :
    measureEdge c ts ref t = { t with have1 := true, period := clampRaw c (rawHalfPeriod c.edgeMode ts ref) } := by
  simp [measureEdge, periodUpdate, h]

/-- A later measurement updates the phase error and the lock first, then filters the period. -/
theorem measureEdge_predicted (h : t.have1 = true) :
    measureEdge c ts ref t =
      { phaseUpdate c (phaseError c.edgeMode ts ref t.period) t with
        have1 := true
        period := filterPeriod c (clampRaw c (rawHalfPeriod c.edgeMode ts ref)) t.period } := by
  simp [measureEdge, periodUpdate, phaseUpdate, lockUpdate, h]

theorem phaseUpdate_lockCnt_of_small {e : Word} (h : e.toInt.natAbs < c.lockThresh.toNat) :
    (phaseUpdate c e t).lockCnt = satInc t.lockCnt := if_pos h

theorem phaseUpdate_lockCnt_of_large {e : Word} (h : c.lockThresh.toNat ≤ e.toInt.natAbs) :
    (phaseUpdate c e t).lockCnt = 0 := if_neg h.not_gt

theorem phaseUpdate_locked (e : Word) :
    (phaseUpdate c e t).locked = true ↔ c.lockCount.toNat ≤ (phaseUpdate c e t).lockCnt.toNat := decide_eq_true_iff

/-- An edge whose measurement lies in the band ends with the measurement and the seeds. -/
theorem onEdge_trk_of_inBand {s : State} {pol : Polarity} (href : s.trk.refEdge s.cfg.edgeMode pol = some ref)
    (hmin : s.cfg.periodMin.toNat ≤ (rawHalfPeriod s.cfg.edgeMode ts ref).toNat)
    (hmax : (rawHalfPeriod s.cfg.edgeMode ts ref).toNat ≤ s.cfg.periodMax.toNat) :
    (onEdge ts pol s).trk = (measureEdge s.cfg.toRawConfig ts ref s.trk).seed pol ts := by
  rw [onEdge_of_ref s href, onMeasurement_of_inBand hmin hmax]

end

/-! ## The period stays in its band (R116, R118, R122) -/

section

/-- A period lies between PERIOD_MIN and PERIOD_MAX. -/
def InBand (c : RawConfig) (p : Word) : Prop := c.periodMin.toNat ≤ p.toNat ∧ p.toNat ≤ c.periodMax.toNat

theorem periodInBand_iff {s : State} : PeriodInBand s ↔ InBand s.cfg.toRawConfig s.trk.period := Iff.rfl

variable {c : Config} {p rawc : Word}

theorem InBand.lt (h : InBand c.toRawConfig p) : p.toNat < 2 ^ 31 := by
  obtain ⟨-, hmax⟩ := h
  have := config_periods c
  omega

theorem clampRaw_inBand (c : Config) (raw : Word) : InBand c.toRawConfig (clampRaw c.toRawConfig raw) := by
  have := config_periods c
  rw [InBand, clampRaw_toNat]
  omega

/-- The filter does not move the period past the measurement. -/
theorem filterPeriod_between (hr : InBand c.toRawConfig rawc) (hp : InBand c.toRawConfig p) :
    min p.toNat rawc.toNat ≤ (filterPeriod c.toRawConfig rawc p).toNat ∧
    (filterPeriod c.toRawConfig rawc p).toNat ≤ max p.toNat rawc.toNat := by
  have hvalue := filterPeriod_toNat c.toRawConfig rawc p hr.lt hp.lt
  have := asr_between ((rawc.toNat : Int) - p.toNat) c.filterShift.toNat
  omega

theorem filterPeriod_inBand (hr : InBand c.toRawConfig rawc) (hp : InBand c.toRawConfig p) :
    InBand c.toRawConfig (filterPeriod c.toRawConfig rawc p) := by
  have := filterPeriod_between hr hp
  obtain ⟨hrmin, hrmax⟩ := hr
  obtain ⟨hpmin, hpmax⟩ := hp
  constructor <;> omega

theorem PeriodInBand.onEdge {s : State} (h : PeriodInBand s) (ts : Word) (pol : Polarity) : PeriodInBand (onEdge ts pol s) := by
  rw [periodInBand_iff, onEdge_cfg]
  rcases onEdge_cases s ts pol with ⟨-, e⟩ | ⟨ref, href, -⟩
  · rw [e, seed_period]
    exact h
  · rw [onEdge_period href]
    dsimp only
    split
    · exact filterPeriod_inBand (clampRaw_inBand _ _) h
    · exact clampRaw_inBand _ _

theorem PeriodInBand.congr {s t : State} (h : PeriodInBand s) (hcfg : t.cfg = s.cfg) (hperiod : t.trk.period = s.trk.period) :
    PeriodInBand t := by
  unfold PeriodInBand
  rwa [hcfg, hperiod]

theorem resetRegisters_periodInBand (s : State) : PeriodInBand s.resetRegisters := by
  obtain ⟨-, -, hmin, hmax, -⟩ := config_periods s.cfg
  exact ⟨hmin, hmax⟩

end

/-! ## The lock flag and its counter, the first measurement, the seeds' valid bits (10_state.md R22 to R29) -/

section

/-- `TrackerConsistent`, of the tracker alone. -/
structure Tracker.Consistent (c : RawConfig) (t : Tracker) : Prop where
  lock  : t.locked = true ↔ c.lockCount.toNat ≤ t.lockCnt.toNat
  first : t.have1 = false → t.perr = 0 ∧ t.pacc = 0 ∧ t.lockCnt = 0
  seeds : t.anyV = true ↔ t.seenFalling = true ∨ t.seenRising = true

theorem trackerConsistent_iff {s : State} : TrackerConsistent s ↔ s.trk.Consistent s.cfg.toRawConfig :=
  ⟨fun ⟨lock, first, seeds⟩ => ⟨lock, first, seeds⟩, fun ⟨lock, first, seeds⟩ => ⟨lock, first, seeds⟩⟩

variable {t : Tracker}

theorem Tracker.Consistent.measureEdge {c : RawConfig} (h : t.Consistent c) (ts ref : Word) :
    (measureEdge c ts ref t).Consistent c := by
  obtain ⟨lock, -, seeds⟩ := h
  cases hhave : t.have1
  case false =>
    rw [measureEdge_first hhave]
    exact ⟨lock, nofun, seeds⟩
  case true =>
    rw [measureEdge_predicted hhave]
    exact ⟨phaseUpdate_locked _, nofun, seeds⟩

/-- A fault clears the count, which unlocks since LOCK_COUNT is at least 1 (00_scope.md R4). -/
theorem Tracker.Consistent.trackingFault {c : Config} (h : t.Consistent c.toRawConfig) :
    (trackingFault t).Consistent c.toRawConfig := by
  obtain ⟨-, first, seeds⟩ := h
  obtain ⟨hcount, -⟩ := config_limits c
  refine ⟨iff_of_false Bool.false_ne_true (Nat.not_le.2 hcount), fun hfirst => ?_, seeds⟩
  obtain ⟨hperr, hpacc, -⟩ := first hfirst
  exact ⟨hperr, hpacc, rfl⟩

theorem Tracker.Consistent.seed {c : RawConfig} (h : t.Consistent c) (pol : Polarity) (ts : Word) : (t.seed pol ts).Consistent c := by
  obtain ⟨lock, first, -⟩ := h
  refine ⟨?_, ?_, ?_⟩
  · rwa [seed_locked, seed_lockCnt]
  · rwa [seed_have1, seed_perr, seed_pacc, seed_lockCnt]
  · cases pol <;> simp [Tracker.seed]

theorem Tracker.Consistent.clearSeeds {c : RawConfig} (h : t.Consistent c) :
    Tracker.Consistent c { t with seenFalling := false, seenRising := false, anyV := false } :=
  ⟨h.lock, h.first, by simp⟩

theorem Tracker.reset_consistent (c : Config) : (Tracker.reset c).Consistent c.toRawConfig := by
  obtain ⟨hcount, -⟩ := config_limits c
  exact ⟨iff_of_false Bool.false_ne_true (Nat.not_le.2 hcount), fun _ => ⟨rfl, rfl, rfl⟩, by simp [Tracker.reset]⟩

variable {s u : State}

theorem TrackerConsistent.congr (h : TrackerConsistent s) (hcfg : u.cfg = s.cfg) (htrk : u.trk = s.trk) : TrackerConsistent u := by
  unfold TrackerConsistent
  rwa [hcfg, htrk]

theorem TrackerConsistent.onEdge (h : TrackerConsistent s) (ts : Word) (pol : Polarity) : TrackerConsistent (onEdge ts pol s) := by
  rw [trackerConsistent_iff] at h ⊢
  rw [onEdge_cfg]
  rcases onEdge_cases s ts pol with ⟨-, e⟩ | ⟨ref, -, e⟩ <;> rw [e]
  · exact h.seed pol ts
  · rcases onMeasurement_cases s ts ref with ⟨-, e⟩ | ⟨-, e⟩ <;> rw [e]
    · exact (h.measureEdge ts ref).seed pol ts
    · exact (h.measureEdge ts ref).trackingFault.seed pol ts

theorem TrackerConsistent.timeoutCheck (h : TrackerConsistent s) (now : Word) : TrackerConsistent (timeoutCheck now s) := by
  rcases timeoutCheck_cases s now with ⟨-, -, e⟩ | ⟨-, e⟩ <;> rw [e]
  · exact trackerConsistent_iff.2 (trackerConsistent_iff.1 h).trackingFault.clearSeeds
  · exact h

end

/-! ## The statements -/

/-- Settles O53: the reset period is in the band, and only EDGE writes the period. -/
theorem everyStepKeepsThePeriodInBand : Obligations.EveryStepKeepsThePeriodInBand := by
  intro s t hs hstep
  refine step_keeps PeriodInBand hs hstep ?clear ?reset ?sample ?edge ?byte ?cycle
  case clear => exact fun u h => h.congr (by simp) (by simp)
  case reset => exact fun u _ => resetRegisters_periodInBand u
  case sample => exact fun u x h => h.congr (by simp) (by simp)
  case edge => exact fun u ts pol h => h.onEdge ts pol
  case byte =>
    intro u b v h hbyte
    obtain ⟨hcfg, htrk, -⟩ := onByte_keeps u hbyte
    exact h.congr hcfg (by rw [htrk])
  case cycle => exact fun u now h => h.congr (by simp) (by simp)

/-- Settles O57: the reset registers satisfy the invariant; EDGE and the edge timeout keep it, and nothing else writes the tracker. -/
theorem everyStepKeepsTheTrackerConsistent : Obligations.EveryStepKeepsTheTrackerConsistent := by
  intro s t hs hstep
  refine step_keeps TrackerConsistent hs hstep ?clear ?reset ?sample ?edge ?byte ?cycle
  case clear => exact fun u h => h.congr (by simp) (by simp)
  case reset => exact fun u _ => trackerConsistent_iff.2 (Tracker.reset_consistent u.cfg)
  case sample => exact fun u x h => h.congr (by simp) (by simp)
  case edge => exact fun u ts pol h => h.onEdge ts pol
  case byte =>
    intro u b v h hbyte
    obtain ⟨hcfg, htrk, -⟩ := onByte_keeps u hbyte
    exact h.congr hcfg htrk
  case cycle => exact fun u now h => (h.timeoutCheck now).congr (by simp) (by simp)

/-- Settles O32: the period by its clamp; in the band no fault follows the measurement. -/
theorem firstMeasurementLoadsThePeriod : Obligations.FirstMeasurementLoadsThePeriod := by
  intro s ts ref pol href hfirst
  dsimp only
  rw [← rawHalfPeriod_toNat]
  refine ⟨onEdge_have1 href, ?_, ?_, ?_, fun hmin hmax => ?_⟩
  · simp [onEdge_period href, hfirst, clampRaw_toNat]
  · simp [onEdge_perr href, hfirst]
  · simp [onEdge_pacc href, hfirst]
  · simp [onEdge_trk_of_inBand href hmin hmax, measureEdge_first hfirst]

/-- Settles O33: the phase error and its accumulator, as the measurement writes them. -/
theorem predictedEdgeWritesThePhaseError : Obligations.PredictedEdgeWritesThePhaseError := by
  intro s ts ref pol href hhave
  dsimp only
  rw [← phaseError_eq, onEdge_perr href, onEdge_pacc href, if_pos hhave, if_pos hhave, satAddS32_toInt]
  exact ⟨rfl, rfl, onEdge_have1 href⟩

/-- Settles O34: both the period and the clamped measurement lie in the band, so the filter's sum is stored exactly. -/
theorem filterMovesTowardTheMeasurement : Obligations.FilterMovesTowardTheMeasurement := by
  intro s ts ref pol hband href hhave
  dsimp only
  have hclamped := clampRaw_inBand s.cfg (rawHalfPeriod s.cfg.edgeMode ts ref)
  rw [← rawHalfPeriod_toNat, ← clampRaw_toNat, onEdge_period href, if_pos hhave]
  exact ⟨filterPeriod_toNat _ _ _ hclamped.lt (periodInBand_iff.1 hband).lt, filterPeriod_between hclamped hband⟩

/-- Settles O36: in the band the lock update of the predicted edge stands. -/
theorem lockCountsConsecutiveSmallErrors : Obligations.LockCountsConsecutiveSmallErrors := by
  intro s ts ref pol href hhave
  dsimp only
  rw [← phaseError_eq, ← rawHalfPeriod_toNat]
  intro hmin hmax
  rw [onEdge_trk_of_inBand href hmin hmax, measureEdge_predicted hhave, seed_lockCnt, seed_locked]
  refine ⟨fun hsmall => ?_, phaseUpdate_lockCnt_of_large, phaseUpdate_locked _⟩
  rw [phaseUpdate_lockCnt_of_small hsmall]
  exact satInc_toNat s.trk.lockCnt

/-- Settles O37: the fields one by one; the range fault of a measurement is the one report an edge makes. -/
theorem edgesLeaveEverythingElseUnchanged : Obligations.EdgesLeaveEverythingElseUnchanged := by
  intro s ts pol
  refine ⟨onEdge_cfg s ts pol, onEdge_par s ts pol, onEdge_pul s ts pol, onEdge_prot s ts pol, onEdge_cp s ts pol,
    onEdge_wgHalf s ts pol, onEdge_edgeSet s ts pol, ?_⟩
  rcases onEdge_cases s ts pol with ⟨-, e⟩ | ⟨ref, -, e⟩ <;> rw [e]
  · exact .inl rfl
  · rcases onMeasurement_cases s ts ref with ⟨-, e⟩ | ⟨-, e⟩ <;> rw [e]
    · exact .inl rfl
    · exact .inr ⟨_, rfl⟩

/-- Settles O38: the prediction is the reference plus `2 P`, so the error is `2 h + δ - 2 P`, which the bound keeps inside 32 signed
bits. -/
theorem jitterBoundsThePhaseError : Obligations.JitterBoundsThePhaseError := by
  intro s ref pol h j δ _ hmode href hhave _ _ hjitter hbound
  have herror : phaseError .samePolarity (ref + BitVec.ofInt 32 (2 * h + δ)) ref s.trk.period =
      BitVec.ofInt 32 (2 * h + δ - 2 * s.trk.period.toNat) := by
    rw [phaseError, add_sub_add_left_eq_sub, ofInt_sub_ofNat]
    rfl
  rw [onEdge_perr href, if_pos hhave, hmode, herror, ofInt32_toInt (by omega) (by omega)]
  omega

end Sys2Proof.Machine

end

section
/-! PROOFS. The parser: its registers inside a frame, its transitions, and a whole frame over the link (43_command.md R181 to R198). -/

namespace Sys2Proof

/-- One more payload byte is one more term of the sum. -/
theorem checksum_concat (cmd len b : Byte) (pay : List Byte) : checksum cmd len (pay ++ [b]) = checksum cmd len pay + b := by
  simp [checksum]

end Sys2Proof

namespace Sys2Proof.Machine

/-! ## One byte in CMD and in PAY, and the payload buffer (R183, R185) -/

section

variable {p : Parser} {b v : Byte} {buf : PayloadBuffer} {i j : Nat}

theorem Parser.advance_cmd (hs : p.state = .cmd) : p.advance b = { p with cmd := b, sum := b, state := .len } := by
  simp only [Parser.advance, hs]

theorem Parser.advance_pay (hs : p.state = .pay) :
    p.advance b =
      { p with
        buf := p.buf.set p.cnt.toNat b
        sum := p.sum + b
        cnt := p.cnt + 1
        state := if (p.cnt + 1).toNat = p.len.toNat then .chk else .pay } := by
  simp only [Parser.advance, hs]

theorem PayloadBuffer.get_set_same (hi : i < 8) : (buf.set i v).get i = v := by
  interval_cases i <;> rfl

theorem PayloadBuffer.get_set_of_lt (hi : i < 8) (hj : j < i) : (buf.set i v).get j = buf.get j := by
  interval_cases i <;> interval_cases j <;> rfl

theorem Parser.received_length : p.received.length = p.cnt.toNat := by
  simp [Parser.received]

theorem Parser.received_getD (hi : i < p.cnt.toNat) : p.received.getD i 0 = p.buf.get i := by
  simp [Parser.received, hi]

/-- The count of a payload of at most 8 bytes does not wrap. -/
theorem Parser.cnt_add_one (hcnt : p.cnt.toNat < 8) : (p.cnt + 1).toNat = p.cnt.toNat + 1 := by
  bv_omega

theorem Parser.received_advance_pay (hs : p.state = .pay) (hcnt : p.cnt.toNat < 8) :
    (p.advance b).received = p.received ++ [b] := by
  have hkept : (List.range p.cnt.toNat).map (p.buf.set p.cnt.toNat b).get = (List.range p.cnt.toNat).map p.buf.get :=
    List.map_congr_left fun j hj => PayloadBuffer.get_set_of_lt hcnt (List.mem_range.1 hj)
  rw [Parser.received, Parser.advance_pay hs]
  simp only
  rw [Parser.cnt_add_one hcnt, List.range_succ, List.map_append, hkept, List.map_singleton,
    PayloadBuffer.get_set_same hcnt]
  rfl

end

/-! ## The registers inside a frame (R184 to R186) -/

/-- The parser has received CMD, LEN and the payload bytes `pay` of a frame, and expects the next payload byte or the CHECKSUM byte. -/
structure Parser.InFrame (p : Parser) (cmd len : Byte) (pay : List Byte) : Prop where
  cmd_eq      : p.cmd = cmd
  len_eq      : p.len = len
  received_eq : p.received = pay
  fits        : pay.length ≤ len.toNat
  short       : len.toNat ≤ 8
  sum_eq      : p.sum = checksum cmd len pay
  state_eq    : p.state = if pay.length = len.toNat then .chk else .pay

section

variable {p : Parser} {cmd len b : Byte} {pay : List Byte}

theorem Parser.InFrame.cnt (h : p.InFrame cmd len pay) : p.cnt.toNat = pay.length := by
  rw [← h.received_eq, Parser.received_length]

/-- An accepted LEN byte begins the payload. -/
theorem Parser.inFrame_of_len (hs : p.state = .len) (hsum : p.sum = p.cmd) (hb : b.toNat ≤ 8) :
    (p.advance b).InFrame p.cmd b [] := by
  have hzero : 0 = b.toNat ↔ b = 0#8 := by bv_omega
  simp only [Parser.advance, hs]
  refine ⟨rfl, rfl, rfl, Nat.zero_le _, hb, ?_, ?_⟩
  · rw [hsum]
    rfl
  · simp [maxPayload, hb.not_gt, hzero]

/-- A payload byte that is still due is received. -/
theorem Parser.InFrame.advance (h : p.InFrame cmd len pay) (hdue : pay.length < len.toNat) :
    (p.advance b).InFrame cmd len (pay ++ [b]) := by
  have hs : p.state = .pay := by rw [h.state_eq, if_neg (by omega)]
  have hcnt : p.cnt.toNat < 8 := by
    have := h.short
    rw [h.cnt]
    omega
  have hreceived := Parser.received_advance_pay (b := b) hs hcnt
  rw [h.received_eq] at hreceived
  have hlength : (pay ++ [b]).length = pay.length + 1 := by simp
  rw [Parser.advance_pay hs] at hreceived ⊢
  refine ⟨h.cmd_eq, h.len_eq, hreceived, by omega, h.short, ?_, ?_⟩
  · rw [checksum_concat, ← h.sum_eq]
  · simp only
    rw [Parser.cnt_add_one hcnt, h.cnt, h.len_eq, hlength]

/-- With the whole payload received, the registers spell the command of the frame's fields. -/
theorem Parser.InFrame.frameCommand (h : p.InFrame cmd len pay) (hlen : pay.length = len.toNat) :
    frameCommand p = decodeCommand cmd len (pay.getD 0 0) (pay.getD 1 0) (pay.getD 2 0) := by
  have hget (i : Nat) (hi : i < len.toNat) : p.buf.get i = pay.getD i 0 := by
    rw [← h.received_eq, Parser.received_getD (by rw [h.cnt]; omega)]
  rw [Machine.frameCommand, h.cmd_eq, h.len_eq]
  refine decodeCommand_congr ?_ ?_
  · rintro rfl
    exact ⟨hget 0 (by decide), hget 1 (by decide), hget 2 (by decide)⟩
  · rintro rfl
    exact ⟨hget 0 (by decide), hget 1 (by decide)⟩

end

/-! ## The invariant of the parser (10_state.md R38) -/

/-- `ParserConsistent`, of the parser alone. -/
structure Parser.Consistent (p : Parser) : Prop where
  len     : p.state = .len → p.sum = p.cmd
  inFrame : p.state = .pay ∨ p.state = .chk → p.InFrame p.cmd p.len p.received

section

variable {s : State} {p : Parser} {b : Byte}

theorem parserConsistent_iff : ParserConsistent s ↔ s.cp.Consistent := by
  constructor
  · rintro ⟨hlen, hpay, hchk⟩
    refine ⟨hlen, ?_⟩
    rintro (hs | hs)
    · obtain ⟨hcnt, h8, hsum⟩ := hpay hs
      rw [← Parser.received_length] at hcnt
      exact ⟨rfl, rfl, rfl, hcnt.le, h8, hsum, by rw [hs, if_neg hcnt.ne]⟩
    · obtain ⟨hcnt, h8, hsum⟩ := hchk hs
      rw [← Parser.received_length] at hcnt
      exact ⟨rfl, rfl, rfl, hcnt.le, h8, hsum, by rw [hs, if_pos hcnt]⟩
  · rintro ⟨hlen, hframe⟩
    refine ⟨hlen, fun hs => ?_, fun hs => ?_⟩
    · have h := hframe (.inl hs)
      refine ⟨?_, h.short, h.sum_eq⟩
      have hne : s.cp.received.length ≠ s.cp.len.toNat := fun heq => by simpa [hs, heq] using h.state_eq
      have := h.fits
      rw [h.cnt]
      omega
    · have h := hframe (.inr hs)
      refine ⟨?_, h.short, h.sum_eq⟩
      by_contra hne
      rw [h.cnt] at hne
      simpa [hs, hne] using h.state_eq

theorem Parser.InFrame.consistent {cmd len : Byte} {pay : List Byte} (h : p.InFrame cmd len pay) : p.Consistent := by
  refine ⟨fun hs => ?_, fun _ => ?_⟩
  · have := h.state_eq
    split at this <;> simp [hs] at this
  · rwa [h.cmd_eq, h.len_eq, h.received_eq]

/-- Nothing is said of a parser between frames or before LEN. -/
theorem Parser.consistent_of_idle (hs : p.state = .idle) : p.Consistent :=
  ⟨fun h => by simp [hs] at h, fun h => by simp [hs] at h⟩

theorem Parser.Consistent.withErrCnt (h : p.Consistent) (n : Half) : Parser.Consistent { p with errCnt := n } := by
  refine ⟨h.len, fun hs => ?_⟩
  obtain ⟨hcmd, hlen, hreceived, hfits, hshort, hsum, hstate⟩ := h.inFrame hs
  exact ⟨hcmd, hlen, hreceived, hfits, hshort, hsum, hstate⟩

theorem Parser.Consistent.advance (h : p.Consistent) (b : Byte) : (p.advance b).Consistent := by
  cases hs : p.state with
  | idle =>
    by_cases hb : b = sofByte
    · simp only [Parser.advance, hs, if_pos hb]
      exact ⟨nofun, nofun⟩
    · simp only [Parser.advance, hs, if_neg hb]
      exact h
  | cmd =>
    rw [Parser.advance_cmd hs]
    exact ⟨fun _ => rfl, nofun⟩
  | len =>
    by_cases hb : b.toNat ≤ 8
    · exact (Parser.inFrame_of_len hs (h.len hs) hb).consistent
    · refine Parser.consistent_of_idle ?_
      simp [Parser.advance, hs, maxPayload, Nat.lt_of_not_le hb]
  | pay =>
    have hframe := h.inFrame (.inl hs)
    have hne : p.received.length ≠ p.len.toNat := fun heq => by simpa [hs, heq] using hframe.state_eq
    exact (hframe.advance (Nat.lt_of_le_of_ne hframe.fits hne)).consistent
  | chk => exact Parser.consistent_of_idle (by simp [Parser.advance, hs])

theorem ParserConsistent.congr {t : State} (h : ParserConsistent s) (hcp : t.cp = s.cp) : ParserConsistent t := by
  unfold ParserConsistent
  rwa [hcp]

end

/-! ## Bytes over the link (10_state.md R50, 43_command.md R196) -/

section

variable {s t u : State} {b : Byte}

theorem andThen_next_right (r : Result) : r.andThen .next = r := by
  cases r <;> rfl

theorem beforeByte_of_no_sample_edge (hsample : s.nextClock.inp.sample = none) (hedge : s.nextClock.inp.edge = none) :
    s.beforeByte = s.nextClock := by
  rw [State.beforeByte, hsample, hedge]
  rfl

/-- A clock that brings only a byte is its BYTE event. -/
theorem step_of_onlyByte (h : onlyByte s b) : step s = onByte b s.nextClock := by
  have hinp : s.nextClock.inp = PortIn.ofByte s.nextClock.inp.now b := h
  have hbefore : s.beforeByte = s.nextClock := beforeByte_of_no_sample_edge (by rw [hinp]; rfl) (by rw [hinp]; rfl)
  rw [step_of_no_reset (by rw [hinp]; rfl), hbefore, hinp]
  exact andThen_next_right _

theorem step_of_byte {tick : Word} {rest : List PortIn} (h : s.trace = PortIn.ofByte tick b :: rest) :
    step s = onByte b { s with inp := PortIn.ofByte tick b, out := .quiet, trace := rest } := by
  have hclock := nextClock_cons s h
  rw [step_of_onlyByte (b := b) (by rw [onlyByte, hclock]; rfl), hclock]

/-- The byte neither completes a frame nor is an error. -/
def Parser.quietByte (p : Parser) (b : Byte) : Prop :=
  (p.state = .len → b.toNat ≤ 8) ∧ (p.state = .pay → p.cnt.toNat < 8) ∧ p.state ≠ .chk

/-- No byte of the list completes a frame or is an error. -/
def Parser.Quiet : Parser → List Byte → Prop
  | _, []      => True
  | p, b :: bs => p.quietByte b ∧ (p.advance b).Quiet bs

theorem onByte_of_quietByte (h : s.cp.quietByte b) : onByte b s = .next (s.advanceParser b) := by
  obtain ⟨hlen, hpay, hchk⟩ := h
  cases hs : s.cp.state with
  | idle => exact onByte_idle hs
  | cmd => simp only [onByte, hs]
  | len => exact onByte_len_accepted hs (hlen hs)
  | pay => simp only [onByte, hs, maxPayload, (hpay hs).not_ge, if_false]
  | chk => exact absurd hs hchk

/-- Quiet bytes, one a clock, move the parser and nothing else but the ports; the clock after them, with one byte more, is its BYTE
event. -/
theorem run_quiet_then_byte {bs : List Byte} {ticks : List Word} {tick : Word} {rest : List PortIn} (hquiet : s.cp.Quiet bs)
    (hticks : ticks.length = bs.length)
    (htrace : s.trace = List.zipWith PortIn.ofByte ticks bs ++ PortIn.ofByte tick b :: rest) :
    run (bs.length + 1) s =
      onByte b
        { s with
          cp := bs.foldl (fun p b => p.advance b) s.cp
          inp := PortIn.ofByte tick b
          out := .quiet
          trace := rest } := by
  induction bs generalizing s ticks with
  | nil =>
    obtain rfl := List.length_eq_zero_iff.1 hticks
    exact (andThen_next_right _).trans (step_of_byte htrace)
  | cons c bs ih =>
    obtain ⟨tick, ticks, rfl⟩ := List.exists_cons_of_length_eq_add_one hticks
    obtain ⟨hbyte, hquiet⟩ := hquiet
    have hstep := (step_of_byte htrace).trans (onByte_of_quietByte hbyte)
    rw [List.length_cons, run, hstep, andThen_next, ih hquiet (Nat.succ.inj hticks) rfl]
    rfl

end

/-! ## A frame over the link (R181 to R185) -/

section

variable {p : Parser} {cmd len : Byte} {pay : List Byte}

/-- The payload bytes still due are received quietly. -/
theorem Parser.InFrame.receives {pre : List Byte} (h : p.InFrame cmd len pre) (hfits : pre.length + pay.length ≤ len.toNat) :
    p.Quiet pay ∧ (pay.foldl (fun p b => p.advance b) p).InFrame cmd len (pre ++ pay) := by
  induction pay generalizing p pre with
  | nil => exact ⟨trivial, by rwa [List.append_nil]⟩
  | cons b pay ih =>
    rw [List.length_cons] at hfits
    have hs : p.state = .pay := by rw [h.state_eq, if_neg (by omega)]
    have hcnt : p.cnt.toNat < 8 := by
      have := h.short
      rw [h.cnt]
      omega
    obtain ⟨hquiet, hend⟩ := ih (h.advance (b := b) (by omega)) (by rw [List.length_append, List.length_singleton]; omega)
    exact ⟨⟨⟨by simp [hs], fun _ => hcnt, by simp [hs]⟩, hquiet⟩, by simpa using hend⟩

/-- From IDLE all bytes of a frame but CHECKSUM are received quietly. -/
theorem Parser.receives_frame (hs : p.state = .idle) (hlen : pay.length = len.toNat) (h8 : len.toNat ≤ 8) :
    p.Quiet (sofByte :: cmd :: len :: pay) ∧
    ((sofByte :: cmd :: len :: pay).foldl (fun p b => p.advance b) p).InFrame cmd len pay := by
  have hsof : p.advance sofByte = { p with state := .cmd } := by simp [Parser.advance, hs]
  have hcmd : (p.advance sofByte).advance cmd = { p with cmd := cmd, sum := cmd, state := .len } := by
    rw [hsof, Parser.advance_cmd rfl]
  have hframe : (((p.advance sofByte).advance cmd).advance len).InFrame cmd len [] := by
    rw [hcmd]
    exact Parser.inFrame_of_len rfl rfl h8
  obtain ⟨hquiet, hend⟩ := hframe.receives (pay := pay) (by simp [hlen])
  refine ⟨⟨?_, ?_, ?_, hquiet⟩, hend⟩
  · simp [Parser.quietByte, hs]
  · simp [Parser.quietByte, hsof]
  · simp [Parser.quietByte, hcmd, h8]

end

/-! ## The statements -/

/-- Settles O55: a byte keeps the parser's own invariant, and nothing else writes the parser but a reset, which leaves it in IDLE. -/
theorem everyStepKeepsTheParserConsistent : Obligations.EveryStepKeepsTheParserConsistent := by
  intro s t hs hstep
  refine step_keeps ParserConsistent hs hstep ?clear ?reset ?sample ?edge ?byte ?cycle
  case clear => exact fun u h => h.congr (by simp)
  case reset => exact fun u _ => parserConsistent_iff.2 (Parser.consistent_of_idle rfl)
  case sample => exact fun u x h => h.congr (by simp)
  case edge => exact fun u ts pol h => h.congr (by simp)
  case byte =>
    intro u b v h hbyte
    obtain ⟨-, -, -, -, -, -, hcp, -, -⟩ := onByte_keeps u hbyte
    rw [parserConsistent_iff, hcp]
    exact ((parserConsistent_iff.1 h).advance b).withErrCnt _
  case cycle => exact fun u now h => h.congr (by simp)

/-- Settles O13: a byte moves the parser by `Parser.advance`, state by state. -/
theorem parserMovesOnlyAlongItsTransitions : Obligations.ParserMovesOnlyAlongItsTransitions := by
  intro s t b h
  obtain ⟨-, -, -, -, -, -, hcp, -, -⟩ := onByte_keeps s h
  have hstate : t.cp.state = (s.cp.advance b).state := by rw [hcp]
  rw [hstate]
  refine ⟨fun hs => ?_, fun hs => ?_, fun hs => ?_, fun hs => ?_, fun hs => ?_⟩
  · by_cases hb : b = sofByte
    · rw [hb, advance_idle_sof hs, if_pos rfl]
    · rw [advance_idle_noise hs hb, if_neg hb, hs]
  · rw [Parser.advance_cmd hs]
  · rw [advance_len hs]
    rfl
  · rw [Parser.advance_pay hs]
  · rw [advance_chk hs]

/-- Settles O12: outside CHK a byte runs no command, so it moves the parser, with at most a protocol error. -/
theorem partialFramesChangeOnlyTheParser : Obligations.PartialFramesChangeOnlyTheParser := by
  intro s t b honly hs hstep
  rw [step_of_onlyByte honly] at hstep
  rcases onByte_cases _ hstep with rfl | ⟨code, v, rfl, -⟩ | ⟨i, hchk, -⟩
  · simp [PortOut.quiet]
  · simp [PortOut.quiet]
  · exact absurd (by simpa using hchk) hs

/-- Settles O11: the consistent registers hold a whole frame with its checksum, and both readings are `decodeCommand` of its fields. -/
theorem parserRecordDecodesLikeTheBytes : Obligations.ParserRecordDecodesLikeTheBytes := by
  intro s tail hconsistent hs
  have hframe := (parserConsistent_iff.1 hconsistent).inFrame (.inr hs)
  have hlen : s.cp.received.length = s.cp.len.toNat := by
    by_contra hne
    simpa [hs, hne] using hframe.state_eq
  rw [decode_frame _ _ _ _ _ hlen hframe.short, if_pos hframe.sum_eq, ← hframe.frameCommand hlen]
  exact ⟨fun i hi => by rw [hi]; rfl, fun r hr => by rw [hr]; rfl⟩

/-- Settles O10: all bytes but CHECKSUM are quiet and leave the frame's fields in the parser; the CHECKSUM byte then runs the command. -/
theorem frameOverTheLinkRunsItsCommand : Obligations.FrameOverTheLinkRunsItsCommand := by
  intro i s front t rest hidle hfront htrace
  obtain ⟨cmd, len, pay, hbytes, hlen, h8, hcommand⟩ := encode_spells i
  have hsplit : encode i = (sofByte :: cmd :: len :: pay) ++ [checksum cmd len pay] := hbytes
  obtain ⟨hquiet, hframe⟩ := Parser.receives_frame (cmd := cmd) hidle hlen h8
  generalize sofByte :: cmd :: len :: pay = body at hsplit hquiet hframe
  rw [hsplit] at hfront htrace ⊢
  have hticks : front.length = body.length := by simpa using hfront
  rw [List.zipWith_append hticks, List.append_assoc] at htrace
  rw [List.length_append, List.length_singleton, run_quiet_then_byte hquiet hticks htrace, List.foldl_append,
    List.getLastD_concat, ← hframe.sum_eq]
  exact onByte_of_command (hframe.state_eq.trans (if_pos hlen)) ((hframe.frameCommand hlen).trans hcommand)

end Sys2Proof.Machine

end

section
/-! PROOFS. What a command may write and when it is an error, the parameter registers, and what SAMPLE leaves alone (10_state.md R31, R32;
30_encoding.md R87, R90; 42_protection.md R165; 43_command.md R188 to R195). -/

namespace Sys2Proof.Machine

/-! ## A command's operand range (R87, R90) -/

section

variable {s t : State} {i : Instr}

/-- A command with an accepted operand is no protocol error. -/
theorem exec_of_inRange (hi : i.inRange s.cfg.toRawConfig = true) (h : exec i s = .next t) : t.cp = s.cp ∧ t.out = s.out := by
  cases i with
  | run =>
    obtain rfl := Host.Outcome.next.inj h
    split <;> exact ⟨rfl, rfl⟩
  | stop =>
    obtain rfl := Host.Outcome.next.inj h
    exact ⟨rfl, rfl⟩
  | setParamCa raw =>
    obtain rfl := Host.Outcome.next.inj h
    rw [if_pos (caAccepted_iff.2 (of_decide_eq_true hi))]
    exact ⟨rfl, rfl⟩
  | setParamPc raw =>
    obtain rfl := Host.Outcome.next.inj h
    rw [if_pos (pcAccepted_iff.2 (of_decide_eq_true hi))]
    exact ⟨rfl, rfl⟩
  | firePulse d =>
    obtain rfl := Host.Outcome.next.inj h
    rw [if_pos (fireAccepted_iff.2 (of_decide_eq_true hi))]
    split <;> exact ⟨rfl, rfl⟩
  | resetFault =>
    obtain rfl := Host.Outcome.next.inj h
    unfold resetFault
    split <;> exact ⟨rfl, rfl⟩

/-- A command with another operand is one protocol error and nothing else. -/
theorem exec_of_not_inRange (hi : i.inRange s.cfg.toRawConfig = false) :
    ∃ v, exec i s = .next (protoError .protoRange v s) := by
  cases i with
  | run | stop | resetFault => cases hi
  | setParamCa raw =>
    have := of_decide_eq_false hi
    exact ⟨_, exec_setParamCa_rejects (by omega)⟩
  | setParamPc raw =>
    have := of_decide_eq_false hi
    exact ⟨_, exec_setParamPc_rejects (by omega)⟩
  | firePulse d =>
    have := of_decide_eq_false hi
    exact ⟨_, exec_firePulse_rejects (by omega)⟩

end

/-! ## The parameter registers (10_state.md R31, R32) -/

section

variable {s t u : State} {i : Instr}

/-- A command writes a parameter register only as the SET_PARAM that names it, with its operand, which is accepted. -/
theorem exec_params (h : exec i s = .next t) :
    (t.par.ca = s.par.ca ∨ i = .setParamCa t.par.ca ∧ caAccepted s.cfg.toRawConfig t.par.ca = true) ∧
    (t.par.pc = s.par.pc ∨ i = .setParamPc t.par.pc ∧ pcAccepted s.cfg.toRawConfig t.par.pc = true) := by
  rcases exec_arming s h with ⟨-, -, rfl⟩ | ⟨-, rfl⟩ | ⟨d, -, -, -, rfl⟩ | ⟨-, -, -, rfl⟩ |
    ⟨r, rfl, hr, rfl⟩ | ⟨r, rfl, hr, rfl⟩ | ⟨v, rfl⟩ | rfl
  case inr.inr.inr.inr.inl => exact ⟨.inr ⟨rfl, hr⟩, .inl rfl⟩
  case inr.inr.inr.inr.inr.inl => exact ⟨.inl rfl, .inr ⟨rfl, hr⟩⟩
  all_goals exact ⟨.inl rfl, .inl rfl⟩

/-- What SAMPLE and EDGE keep holds before the BYTE event of a clock. -/
theorem beforeByte_keeps (P : State → Prop) (clear : P s.nextClock) (sample : ∀ u x, P u → P (onSample x u))
    (edge : ∀ u ts pol, P u → P (onEdge ts pol u)) : P s.beforeByte := by
  have hsample : P (sampleEvent s.nextClock.inp.sample s.nextClock) := by
    rcases sampleEvent_cases s.nextClock.inp.sample s.nextClock with h | ⟨x, -, h⟩ <;> rw [h]
    · exact clear
    · exact sample _ _ clear
  unfold State.beforeByte
  rcases edgeEvent_cases s.nextClock.inp.edge (sampleEvent s.nextClock.inp.sample s.nextClock) with h | ⟨e, -, h⟩ <;> rw [h]
  · exact hsample
  · exact edge _ _ _ hsample

theorem beforeByte_params (s : State) : s.beforeByte.par.ca = s.par.ca ∧ s.beforeByte.par.pc = s.par.pc :=
  beforeByte_keeps (fun u => u.par.ca = s.par.ca ∧ u.par.pc = s.par.pc) (by simp) (by simp) (by simp)

/-- The BYTE event of a clock writes a parameter register only by the command it dispatches. -/
theorem byteEvent_params (hr : s.nextClock.inp.reset = false) (h : byteEvent s.nextClock.inp.byte s.beforeByte = .next u) :
    (u.par.ca = s.par.ca ∨ commandOf s = some (.setParamCa u.par.ca)) ∧
    (u.par.pc = s.par.pc ∨ commandOf s = some (.setParamPc u.par.pc)) := by
  obtain ⟨hca, hpc⟩ := beforeByte_params s
  rw [← hca, ← hpc]
  rcases byteEvent_cases h with rfl | ⟨b, hb, h⟩
  · exact ⟨.inl rfl, .inl rfl⟩
  rcases onByte_cases _ h with rfl | ⟨code, v, rfl, -⟩ | ⟨i, hchk, rfl, hframe, hexec⟩
  · exact ⟨.inl rfl, .inl rfl⟩
  · exact ⟨.inl rfl, .inl rfl⟩
  · rw [beforeByte_cp, nextClock_cp] at hchk hb hframe
    have hcmd : commandOf s = some i := commandOf_eq_some.2 ⟨hr, hchk, hb, hframe⟩
    obtain ⟨hca, hpc⟩ := exec_params hexec
    rw [hcmd]
    exact ⟨hca.imp id fun ⟨hi, _⟩ => congrArg _ hi, hpc.imp id fun ⟨hi, _⟩ => congrArg _ hi⟩

theorem cycleEvent_params {c : Bool} {now : Word} (h : cycleEvent c now u = .next t) :
    t.par.ca = u.par.ca ∧ t.par.pc = u.par.pc := by
  rcases cycleEvent_cases h with ⟨-, rfl⟩ | ⟨-, rfl⟩
  · exact ⟨rfl, rfl⟩
  · simp

theorem ParamsInRange.congr (h : ParamsInRange s) (hcfg : t.cfg = s.cfg) (hca : t.par.ca = s.par.ca) (hpc : t.par.pc = s.par.pc) :
    ParamsInRange t := by
  unfold ParamsInRange
  rwa [hcfg, hca, hpc]

theorem resetRegisters_paramsInRange (s : State) : ParamsInRange s.resetRegisters := by
  obtain ⟨-, hca1, hcaMax, hpcMin, hpcMax⟩ := config_params s.cfg
  exact ⟨⟨hca1, hcaMax⟩, hpcMin, hpcMax⟩

theorem ParamsInRange.exec (h : ParamsInRange s) (hexec : exec i s = .next t) : ParamsInRange t := by
  obtain ⟨hcfg, -⟩ := exec_keeps s hexec
  obtain ⟨hca, hpc⟩ := exec_params hexec
  obtain ⟨hcaOld, hpcOld⟩ := h
  unfold ParamsInRange
  rw [hcfg]
  refine ⟨?_, ?_⟩
  · rcases hca with hkept | ⟨-, hnew⟩
    · rwa [hkept]
    · exact caAccepted_iff.1 hnew
  · rcases hpc with hkept | ⟨-, hnew⟩
    · rwa [hkept]
    · exact pcAccepted_iff.1 hnew

theorem ParamsInRange.onByte {b : Byte} (h : ParamsInRange s) (hbyte : onByte b s = .next t) : ParamsInRange t := by
  have hadvance : ParamsInRange (s.advanceParser b) := h.congr rfl rfl rfl
  rcases onByte_cases s hbyte with rfl | ⟨code, v, rfl, -⟩ | ⟨i, -, -, -, hexec⟩
  · exact hadvance
  · exact hadvance.congr rfl rfl rfl
  · exact hadvance.exec hexec

end

/-! ## The statements -/

/-- Settles O54: the reset values are accepted ones, and a command stores accepted operands only. -/
theorem everyStepKeepsTheParametersInRange : Obligations.EveryStepKeepsTheParametersInRange := by
  intro s t hs hstep
  refine step_keeps ParamsInRange hs hstep ?clear ?reset ?sample ?edge ?byte ?cycle
  case clear => exact fun u h => h.congr (by simp) (by simp) (by simp)
  case reset => exact fun u _ => resetRegisters_paramsInRange u
  case sample => exact fun u x h => h.congr (by simp) (by simp) (by simp)
  case edge => exact fun u ts pol h => h.congr (by simp) (by simp) (by simp)
  case byte => exact fun u b v h hbyte => h.onByte hbyte
  case cycle => exact fun u now h => h.congr (by simp) (by simp) (by simp)

/-- Settles O58: what comes before and after the BYTE event of a clock leaves the parameter registers alone. -/
theorem onlySetParamWritesTheParameters : Obligations.OnlySetParamWritesTheParameters := by
  intro s t hstep hr
  rcases step_cases hstep with ⟨hreset, -⟩ | ⟨-, u, hbyte, hcycle⟩
  · simp [hr] at hreset
  · obtain ⟨hca, hpc⟩ := cycleEvent_params hcycle
    rw [hca, hpc]
    exact byteEvent_params hr hbyte

/-- Settles O22: what every command leaves alone, and what each way a command can end writes. -/
theorem commandsLeaveEverythingElseUnchanged : Obligations.CommandsLeaveEverythingElseUnchanged := by
  intro i s t h
  obtain ⟨hcfg, htrk, hhalf, hinp, htrace, hedges, hcp, hlast, hcount⟩ := exec_keeps s h
  refine ⟨hcfg, htrk, hhalf, hinp, htrace, hedges, hcp, hlast, hcount, ?_⟩
  rcases exec_arming s h with ⟨rfl, -, rfl⟩ | ⟨rfl, rfl⟩ | ⟨d, rfl, -, -, rfl⟩ | ⟨rfl, -, -, rfl⟩ | ⟨r, rfl, -, rfl⟩ |
    ⟨r, rfl, -, rfl⟩ | ⟨v, rfl⟩ | rfl <;> simp

/-- Settles O23: in the range no command reports or counts; outside it a command is the protocol error alone. -/
theorem onlyOutOfRangeOperandsAreErrors : Obligations.OnlyOutOfRangeOperandsAreErrors := by
  intro i s
  obtain ⟨t, h⟩ := exec_answers s i
  refine ⟨t, h, fun hin => ?_, fun hout => ?_⟩
  · obtain ⟨hcp, hreport⟩ := exec_of_inRange hin h
    rw [hcp, hreport]
    exact ⟨rfl, rfl⟩
  · obtain ⟨v, hv⟩ := exec_of_not_inRange hout
    obtain rfl := Host.Outcome.next.inj (hv.symm.trans h)
    exact ⟨rfl, ⟨v, rfl⟩, rfl, rfl, rfl⟩

/-- Settles O26: the fields one by one; while latched a sample is only recorded. -/
theorem samplesLeaveEverythingElseUnchanged : Obligations.SamplesLeaveEverythingElseUnchanged := by
  intro s x
  refine ⟨onSample_cfg s x, onSample_trk s x, onSample_cp s x, onSample_wgHalf s x, onSample_ca s x, onSample_pc s x,
    onSample_start s x, onSample_dur s x, onSample_edgeSet s x, fun hl => ?_⟩
  rw [onSample_of_latched s hl]
  rfl

end Sys2Proof.Machine

end

section
/-! PROOFS. The whole clock: its reports, its answer, clocks without an event, the state after reset, and when its edge set is inactive
(10_state.md R50; 20_memory.md R68; 41_waveform.md R153, R154; 60_exceptions.md R222; 70_reset_and_hazards.md R252). -/

namespace Sys2Proof.Machine

/-! ## At most one report of each handler (60_exceptions.md R222) -/

section

/-- From `s` to `t` at most one report is appended, with one of the given codes. -/
def ReportsAtMostOne (codes : List ReportCode) (s t : State) : Prop :=
  ∃ l : List Report, t.out.report = s.out.report ++ l ∧ l.length ≤ 1 ∧ ∀ r ∈ l, r.code ∈ codes

variable {codes : List ReportCode} {s t u : State} {code : ReportCode}

theorem ReportsAtMostOne.of_eq (h : t.out.report = s.out.report) : ReportsAtMostOne codes s t :=
  ⟨[], by simp [h]⟩

theorem ReportsAtMostOne.of_append {info : Word} (h : t.out.report = s.out.report ++ [⟨code, info⟩]) (hcode : code ∈ codes) :
    ReportsAtMostOne codes s t :=
  ⟨[⟨code, info⟩], h, by simp, by simpa using hcode⟩

theorem sampleEvent_reports (x : Option Half) (s : State) :
    ReportsAtMostOne [.safetyTripInst, .safetyTripSus] s (sampleEvent x s) := by
  rcases sampleEvent_cases x s with h | ⟨v, -, h⟩ <;> rw [h]
  · exact .of_eq rfl
  · rcases onSample_cases s v with ⟨h, -⟩ | ⟨-, ⟨-, h⟩ | ⟨-, -, h⟩⟩ <;> rw [h]
    · exact .of_eq rfl
    · exact .of_append rfl (by simp)
    · exact .of_append rfl (by simp)

theorem edgeEvent_reports (e : Option Edge) (s : State) : ReportsAtMostOne [.trkRange] s (edgeEvent e s) := by
  rcases edgeEvent_cases e s with h | ⟨v, -, h⟩ <;> rw [h]
  · exact .of_eq rfl
  · obtain ⟨-, -, -, -, -, -, -, hnone | ⟨info, hone⟩⟩ := edgesLeaveEverythingElseUnchanged s v.ts v.pol
    · exact .of_eq hnone
    · exact .of_append hone (by simp)

/-- The one report of a command is that its operand is out of range. -/
theorem exec_reports {i : Instr} (h : exec i s = .next t) : ReportsAtMostOne protoCodes s t := by
  obtain ⟨u, hu, hin, hout⟩ := onlyOutOfRangeOperandsAreErrors i s
  obtain rfl := Host.Outcome.next.inj (hu.symm.trans h)
  cases hi : i.inRange s.cfg.toRawConfig
  · obtain ⟨-, ⟨info, hone⟩, -⟩ := hout hi
    exact .of_append hone (by simp [protoCodes])
  · obtain ⟨-, hnone⟩ := hin hi
    exact .of_eq hnone

theorem byteEvent_reports {b : Option Byte} (h : byteEvent b s = .next t) : ReportsAtMostOne protoCodes s t := by
  rcases byteEvent_cases h with rfl | ⟨v, -, h⟩
  · exact .of_eq rfl
  rcases onByte_cases _ h with rfl | ⟨code, v, rfl, hcode⟩ | ⟨i, -, -, -, hexec⟩
  · exact .of_eq rfl
  · exact .of_append rfl hcode
  · exact (exec_reports hexec : ReportsAtMostOne protoCodes (s.advanceParser _) t)

theorem cycleEvent_reports {c : Bool} {now : Word} (h : cycleEvent c now s = .next t) : ReportsAtMostOne [.trkTimeout] s t := by
  rcases cycleEvent_cases h with ⟨-, rfl⟩ | ⟨-, rfl⟩
  · exact .of_eq rfl
  · rcases timeoutCheck_report s now with hnone | ⟨info, hone⟩
    · exact .of_eq (by simpa using hnone)
    · exact .of_append (by simpa using hone) (by simp)

end

/-! ## A clock's answer (00_scope.md R11) -/

section

variable {s u : State}

theorem beforeByte_periodInBand (h : PeriodInBand s) : PeriodInBand s.beforeByte :=
  beforeByte_keeps PeriodInBand (h.congr (by simp) (by simp)) (fun _ _ h => h.congr (by simp) (by simp))
    fun _ ts pol h => h.onEdge ts pol

theorem byteEvent_answers (h : ParserConsistent s) (b : Option Byte) : ∃ t, byteEvent b s = .next t := by
  cases b with
  | none => exact ⟨s, rfl⟩
  | some v =>
    refine onByte_answers s fun hs => ?_
    obtain ⟨-, hpay, -⟩ := h
    obtain ⟨hcnt, h8, -⟩ := hpay hs
    omega

theorem byteEvent_periodInBand {b : Option Byte} (h : PeriodInBand s) (hbyte : byteEvent b s = .next u) : PeriodInBand u := by
  rcases byteEvent_cases hbyte with rfl | ⟨v, -, hbyte⟩
  · exact h
  · obtain ⟨hcfg, htrk, -⟩ := onByte_keeps s hbyte
    exact h.congr hcfg (by rw [htrk])

theorem PeriodInBand.period_ne_zero (h : PeriodInBand s) : s.trk.period ≠ 0#32 := by
  intro hzero
  have := h.bounds
  simp [hzero] at this

theorem cycleEvent_answers (h : PeriodInBand s) (c : Bool) (now : Word) : ∃ t, cycleEvent c now s = .next t := by
  cases c with
  | false => exact ⟨s, rfl⟩
  | true => exact ⟨_, onCycle_answers s (.inl h.period_ne_zero)⟩

end

/-! ## Clocks without an event, and the state after reset (10_state.md R50, 70_reset_and_hazards.md R252) -/

section

theorem step_of_noEvent {s : State} (h : noEvent s) : step s = .next s.nextClock := by
  have hinp : s.nextClock.inp = PortIn.idle s.nextClock.inp.now := h
  have hbefore : s.beforeByte = s.nextClock := beforeByte_of_no_sample_edge (by rw [hinp]; rfl) (by rw [hinp]; rfl)
  rw [step_of_no_reset (by rw [hinp]; rfl), hbefore, hinp]
  rfl

theorem resetWith_status (c : Config) : (State.resetWith c).status = 0x0020 := by
  have hflags : (State.resetWith c).status =
      (BitVec.ofBool true ++ BitVec.ofBool false ++ BitVec.ofBool false ++ BitVec.ofBool false ++ BitVec.ofBool false ++
        BitVec.ofBool false).setWidth 16 := rfl
  rw [hflags]
  decide

/-- With an empty trace the clocks after reset are idle (log entry 4). -/
theorem run_resetWith (c : Config) (n : Nat) : run n (State.resetWith c) = .next (State.resetWith c) := by
  have hidle : step (State.resetWith c) = .next (State.resetWith c) := step_of_noEvent (s := State.resetWith c) rfl
  induction n with
  | zero => rfl
  | succ n ih => rw [run, hidle, andThen_next, ih]

end

/-! ## When a clock's edge set is inactive (41_waveform.md R150) -/

section

variable {s t u : State}

theorem emitEdgeSet_inhibit (now : Word) (s : State) : (emitEdgeSet now s).inhibit = s.inhibit := rfl

theorem onCycle_edgeSet_valid {now : Word} (h : onCycle now s = .next t) : t.out.edgeSet.valid = true := by
  rw [onCycle_emits h]
  exact nextEdgeSet_valid _ now

theorem byteEvent_edgeSet {b : Option Byte} (h : byteEvent b s = .next u) : u.out.edgeSet = s.out.edgeSet := by
  rcases byteEvent_cases h with rfl | ⟨v, -, h⟩
  · rfl
  · obtain ⟨-, -, -, -, -, hedges, -⟩ := onByte_keeps s h
    exact hedges

/-- A clock that ends inhibited drives no active edge set. -/
theorem step_inactive_of_inhibit (h : step s = .next t) (hi : t.inhibit = true) : t.out.edgeSet.active = false := by
  rcases step_cases h with ⟨-, rfl⟩ | ⟨-, u, hbyte, hcycle⟩
  · simp [PortOut.quiet, EdgeSet.none]
  · rcases cycleEvent_cases hcycle with ⟨-, rfl⟩ | ⟨-, rfl⟩
    · have hbefore : s.beforeByte.out.edgeSet = EdgeSet.none :=
        beforeByte_keeps (fun v => v.out.edgeSet = EdgeSet.none) (by simp [PortOut.quiet]) (by simp) (by simp)
      rw [byteEvent_edgeSet hbyte, hbefore]
      rfl
    · rw [emitEdgeSet_inhibit] at hi
      rw [emitEdgeSet_edgeSet, nextEdgeSet_active, hi]
      rfl

theorem inhibit_of_latched (h : s.prot.latched = true) : s.inhibit = true := by
  simp [State.inhibit, h]

/-- Without a reset and a RESET_FAULT a latched monitor stays latched. -/
theorem step_keeps_latched (h : step s = .next t) (hs : s.prot.latched = true) (hr : s.nextClock.inp.reset = false)
    (hcmd : commandOf s ≠ some .resetFault) : t.prot.latched = true := by
  rw [← Bool.not_eq_false]
  intro ht
  rcases latchIsSticky s t h hs ht with hreset | ⟨hrelease, -⟩
  · simp [hr] at hreset
  · exact hcmd hrelease

/-! ## The edge times in their window (10_state.md R44, 41_waveform.md R153) -/

theorem inhibitedEdgeSet_phase2On (ref period : Word) (half : Bool) : (inhibitedEdgeSet ref period half).phase2On = 0 :=
  Int.zero_emod _

theorem inhibitedEdgeSet_inWindow {ref period : Word} {half : Bool} (h : 0 < period.toNat) :
    (inhibitedEdgeSet ref period half).inWindow :=
  ⟨h, h, h, h⟩

theorem onTicks_le (s : State) : s.onTicks ≤ s.trk.period.toNat - s.cfg.deadMin.toNat :=
  Nat.min_le_right _ _

theorem armedEdgeSet_inWindow (now : Word) (hP : PeriodInBand s) : (s.armedEdgeSet now).inWindow := by
  have hpos : 0 < s.trk.period.toNat := (Nat.zero_le _).trans_lt (onTicks_lt_period hP)
  have hwrapped (x : Int) : x % s.trk.period.toNat < s.trk.period.toNat := Int.emod_lt_of_pos x (Int.ofNat_lt.2 hpos)
  refine ⟨hpos, ?_, ?_, ?_⟩
  · rw [armedEdgeSet_p1Fall now hP]
    exact onTicks_lt_period hP
  · rw [← Int.ofNat_lt, armedEdgeSet_p2Rise now hP]
    exact hwrapped _
  · rw [← Int.ofNat_lt, armedEdgeSet_p2Fall now hP]
    exact hwrapped _

/-! ## A sample that trips (42_protection.md R163, R164) -/

variable {x : Half}

/-- The sample exceeds TRIP_INST, or is the SUS_COUNT-th in a row above TRIP_SUS. -/
def Trips (x : Half) (s : State) : Prop :=
  s.cfg.tripInst.toNat < x.toNat ∨ s.cfg.susCount.toNat ≤ (recordSample x s).prot.susCnt.toNat

theorem trips_nextClock : Trips x s.nextClock ↔ Trips x s := by
  simp [Trips, recordSample]

theorem onSample_latched_iff (hn : s.prot.latched = false) : (onSample x s).prot.latched = true ↔ Trips x s := by
  constructor
  · intro ht
    by_contra hquiet
    obtain ⟨hinst, hsus⟩ := not_or.1 hquiet
    simp [onSample_of_noTrip hn hinst hsus, hn] at ht
  · intro htrip
    obtain ⟨code, h⟩ := onSample_of_trip hn htrip
    rw [h, latchEntry_prot]

/-- A sample that trips, whichever the cause, exceeds TRIP_SUS: any other clears the sustained counter. -/
theorem Trips.above (h : Trips x s) : s.cfg.tripSus.toNat < x.toNat := by
  obtain ⟨-, hthresholds, hcount, -⟩ := config_limits s.cfg
  rcases h with hinst | hsus
  · omega
  · by_contra hbelow
    have hcleared : (recordSample x s).prot.susCnt.toNat = 0 := by
      rw [recordSample_susCnt_of_le s x (by omega)]
      rfl
    omega

/-- Before the BYTE event of its clock a trip has latched, disarmed and recorded its sample. -/
theorem beforeByte_of_trips (hx : s.nextClock.inp.sample = some x) (hn : s.prot.latched = false) (h : Trips x s) :
    s.beforeByte.prot.latched = true ∧ s.beforeByte.par.run = false ∧ s.beforeByte.prot.last = x := by
  obtain ⟨code, hlatch⟩ := onSample_of_trip (s := s.nextClock) (by simpa using hn) (trips_nextClock.2 h)
  have hsample : sampleEvent s.nextClock.inp.sample s.nextClock = latchEntry code x (recordSample x s.nextClock) := by
    rw [hx, ← hlatch]
    rfl
  rw [State.beforeByte, hsample]
  rcases edgeEvent_cases s.nextClock.inp.edge (latchEntry code x (recordSample x s.nextClock)) with e | ⟨v, -, e⟩ <;> simp [e]

/-- No command in the clock of a trip takes the latch away or arms the output: RESET_FAULT is refused above TRIP_SUS. -/
theorem byteEvent_of_trips (hr : s.nextClock.inp.reset = false) (hx : s.nextClock.inp.sample = some x)
    (hn : s.prot.latched = false) (h : Trips x s) (hbyte : byteEvent s.nextClock.inp.byte s.beforeByte = .next u) :
    u.prot.latched = true ∧ u.par.run = false := by
  obtain ⟨hlatched, hrun, hlast⟩ := beforeByte_of_trips hx hn h
  constructor
  · rw [← Bool.not_eq_false]
    intro hu
    obtain ⟨-, hbelow⟩ := byteEvent_unlatches hr hbyte hlatched hu
    have hkept : u.prot.last = s.beforeByte.prot.last := by
      rcases byteEvent_cases hbyte with rfl | ⟨b, -, hbyte⟩
      · rfl
      · obtain ⟨-, -, -, -, -, -, -, hkept, -⟩ := onByte_keeps _ hbyte
        exact hkept
    rw [hkept, hlast] at hbelow
    exact absurd h.above (by omega)
  · rw [← Bool.not_eq_true]
    intro hu
    rcases byteEvent_arming hr hbyte with hnothing | ⟨hnormal, -⟩
    · simp [hnothing.run hu] at hrun
    · simp [hlatched] at hnormal

end

/-! ## The statements -/

/-- Settles O50: the reports of the four events, appended one after the other to the outputs that the clock's start cleared. -/
theorem reportsComeAtMostOnePerHandler : Obligations.ReportsComeAtMostOnePerHandler := by
  intro s t hstep
  rcases step_cases hstep with ⟨-, rfl⟩ | ⟨-, u, hbyte, hcycle⟩
  · exact ⟨[], [], [], [], by simp [PortOut.quiet]⟩
  · obtain ⟨a, ha, halen, hacode⟩ := sampleEvent_reports s.nextClock.inp.sample s.nextClock
    obtain ⟨b, hb, hblen, hbcode⟩ := edgeEvent_reports s.nextClock.inp.edge (sampleEvent s.nextClock.inp.sample s.nextClock)
    obtain ⟨c, hc, hclen, hccode⟩ := byteEvent_reports hbyte
    obtain ⟨d, hd, hdlen, hdcode⟩ := cycleEvent_reports hcycle
    have hempty : s.nextClock.out.report = [] := by simp [PortOut.quiet]
    rw [hempty, List.nil_append] at ha
    refine ⟨a, b, c, d, ?_, halen, hblen, hclen, hdlen, hacode, by simpa using hbcode, hccode, by simpa using hdcode⟩
    rw [hd, hc, State.beforeByte, hb, ha]

/-- Settles O51: a payload byte in a consistent parser fits the buffer, and a period in its band is not 0. -/
theorem everyStepAnswersANextState : Obligations.EveryStepAnswersANextState := by
  intro s hparser hperiod
  cases hr : s.nextClock.inp.reset with
  | true => exact ⟨_, step_of_reset hr⟩
  | false =>
    have hbefore : ParserConsistent s.beforeByte := hparser.congr (by simp)
    obtain ⟨u, hbyte⟩ := byteEvent_answers hbefore s.nextClock.inp.byte
    obtain ⟨t, hcycle⟩ := cycleEvent_answers (byteEvent_periodInBand (beforeByte_periodInBand hperiod) hbyte)
      s.nextClock.inp.cycle s.nextClock.inp.now
    exact ⟨t, by rw [step_of_no_reset hr, hbyte, andThen_next, hcycle]⟩

/-- Settles O52: the state after reset has the registers of a reset clock. -/
theorem invariantsHoldAfterReset : Obligations.InvariantsHoldAfterReset := fun c =>
  ⟨resetRegisters_periodInBand (State.resetWith c), resetRegisters_paramsInRange (State.resetWith c),
    parserConsistent_iff.2 (Parser.consistent_of_idle rfl), resetRegisters_monitorConsistent (State.resetWith c),
    trackerConsistent_iff.2 (Tracker.reset_consistent c)⟩

/-- Settles O49: such a clock only samples the ports and clears the outputs. -/
theorem clockWithoutEventChangesNoState : Obligations.ClockWithoutEventChangesNoState := fun s h =>
  ⟨s.nextClock, step_of_noEvent h, by simp [State.obs], nextClock_cfg s, nextClock_out s⟩

/-- Settles O47: the state after reset is unarmed and unchanged by idle clocks, so its first CYCLE is inhibited. -/
theorem resetComesOutInhibited : Obligations.ResetComesOutInhibited := by
  intro c n now
  have hinhibited : CycleInhibited (State.resetWith c) now := .inr (.inl rfl)
  refine ⟨⟨_, run_resetWith c n, rfl, resetWith_status c, rfl⟩, ⟨_, onCycle_of_inhibited hinhibited, ?_⟩⟩
  rw [emitEdgeSet_edgeSet, nextEdgeSet_of_inhibited hinhibited]
  exact ⟨rfl, rfl, rfl⟩

/-- Settles O9: a clock without a reset by its definition; the matching CHECKSUM byte is the BYTE event that runs the command. -/
theorem stepRunsTheDecodedCommand : Obligations.StepRunsTheDecodedCommand := by
  refine ⟨fun s hr => step_of_no_reset hr, fun s x e b now => ⟨rfl, rfl, rfl, rfl, rfl, rfl, rfl, rfl⟩, ?_⟩
  intro s i hr hchk hb hframe
  have hcp : s.beforeByte.cp = s.cp := by simp
  have hbyte : byteEvent (some s.cp.sum) s.beforeByte = exec i (s.beforeByte.advanceParser s.cp.sum) := by
    rw [← hcp] at hchk hframe ⊢
    exact onByte_of_command hchk hframe
  rw [step_of_no_reset hr, hb, hbyte]
  rfl

/-- Settles O28: the trip has latched and disarmed before the BYTE event, and nothing after it in the clock takes that back. -/
theorem tripInhibitsTheCycleOfItsOwnClock : Obligations.TripInhibitsTheCycleOfItsOwnClock := by
  intro s x hr hx hcycle hn ht t hstep
  have htrips := (onSample_latched_iff hn).1 ht
  rcases step_cases hstep with ⟨hreset, -⟩ | ⟨-, u, hbyte, hend⟩
  · simp [hr] at hreset
  obtain ⟨hlatched, hrun⟩ := byteEvent_of_trips hr hx hn htrips hbyte
  obtain ⟨hprot, hpar⟩ := cycleEvent_arming hend
  have htLatched : t.prot.latched = true := by rw [hprot, hlatched]
  have htRun : t.par.run = false := by
    rcases hpar with ⟨hkept, -⟩ | ⟨hcleared, -⟩
    · rw [hkept, hrun]
    · exact hcleared
  have hinhibit := inhibit_of_latched htLatched
  rw [hcycle] at hend
  exact ⟨onCycle_edgeSet_valid hend, step_inactive_of_inhibit hstep hinhibit, htLatched, htRun, hinhibit⟩

/-- Settles O29, by induction on the number of clocks: each keeps the latch, and the last one ends inhibited. -/
theorem latchedRunsEmitOnlySafeEdgeSets : Obligations.LatchedRunsEmitOnlySafeEdgeSets := by
  intro n
  induction n with
  | zero =>
    rintro s t hs ⟨hr, hcmd, -⟩ hrun
    have hstep : step s = .next t := (andThen_next_right _).symm.trans hrun
    have ht := step_keeps_latched hstep hs hr hcmd
    have hinhibit := inhibit_of_latched ht
    exact ⟨ht, step_inactive_of_inhibit hstep hinhibit, hinhibit⟩
  | succ n ih =>
    rintro s t hs ⟨hr, hcmd, hlater⟩ hrun
    obtain ⟨u, hstep, hrun⟩ := andThen_eq_next hrun
    exact ih u t (step_keeps_latched hstep hs hr hcmd) (hlater u hstep) hrun

/-- Settles O42: an inhibited edge set has every time 0; an armed one is on for `on` ticks in either phase, at most the period less
DEAD_MIN. -/
theorem edgeSetsKeepTheDeadTime : Obligations.EdgeSetsKeepTheDeadTime := by
  intro s t now hP h
  obtain ⟨hdead, hlong, -⟩ := hP.bounds
  rw [onCycle_emits h, emitEdgeSet_edgeSet]
  by_cases hi : CycleInhibited s now
  · rw [nextEdgeSet_of_inhibited hi, inhibitedEdgeSet_phase2On]
    refine ⟨inhibitedEdgeSet_inWindow (by omega), hdead, ?_, ?_⟩
    · exact hlong.le
    · rw [sub_zero]
      exact Int.ofNat_le.2 hlong.le
  · rw [nextEdgeSet_of_armed hi, armedEdgeSet_phase2On now hP, armedEdgeSet_p1Fall now hP]
    have hon := onTicks_le s
    refine ⟨armedEdgeSet_inWindow now hP, hdead, ?_, ?_⟩
    · simp only [activeEdgeSet]
      omega
    · simp only [activeEdgeSet]
      omega

end Sys2Proof.Machine

end

section
/-! PROOFS. The registers that only the observation port shows steer nothing else (10_state.md R27, R29, R36; 40_pll.md R126;
60_exceptions.md R233). -/

namespace Sys2Proof.Machine

/-! ## Handlers that read none of these registers -/

section

/-- What `f` answers does not depend on the observed registers, but for these registers themselves. -/
def IgnoresObservers (f : State → Result) : Prop :=
  ∀ s, Result.eraseObservers (f s) = Result.eraseObservers (f s.eraseObservers)

variable {f g : State → Result} {s s' : State}

theorem eraseObservers_next (s : State) : Result.eraseObservers (.next s) = .next s.eraseObservers := rfl

theorem IgnoresObservers.congr (h : IgnoresObservers f) (hs : s.eraseObservers = s'.eraseObservers) :
    Result.eraseObservers (f s) = Result.eraseObservers (f s') := by
  rw [h s, hs, ← h s']

/-- One handler after the other: both find alike states. -/
theorem IgnoresObservers.andThen (hf : IgnoresObservers f) (hg : IgnoresObservers g) :
    IgnoresObservers fun s => (f s).andThen g := by
  intro s
  have h := hf s
  dsimp only
  cases hr : f s with
  | next u =>
    cases hr' : f s.eraseObservers with
    | next u' =>
      rw [hr, hr'] at h
      exact hg.congr (Host.Outcome.next.inj h)
    | fault e => cases e
    | refused e =>
      rw [hr, hr'] at h
      cases h
  | fault e => cases e
  | refused e =>
    cases hr' : f s.eraseObservers with
    | next u' =>
      rw [hr, hr'] at h
      cases h
    | fault e => cases e
    | refused e' =>
      rw [hr, hr'] at h
      cases h
      rfl

/-- A handler that always answers ignores the observed registers when the states it leaves are alike. -/
theorem ignoresObservers_of_state {f : State → State} (h : ∀ s, (f s).eraseObservers = (f s.eraseObservers).eraseObservers) :
    IgnoresObservers fun s => .next (f s) := by
  intro s
  rw [eraseObservers_next, eraseObservers_next, h s]

theorem ignoresObservers_next : IgnoresObservers .next := ignoresObservers_of_state fun _ => rfl

end

/-! ## SAMPLE and CYCLE: their conditions read other registers only -/

section

theorem onSample_ignoresObservers (x : Half) : IgnoresObservers fun s => .next (onSample x s) := by
  refine ignoresObservers_of_state fun s => ?_
  simp only [onSample, apply_ite State.eraseObservers]
  rfl

theorem timeoutCheck_ignoresObservers (now : Word) : IgnoresObservers fun s => .next (timeoutCheck now s) := by
  refine ignoresObservers_of_state fun s => ?_
  simp only [timeoutCheck, apply_ite State.eraseObservers]
  rfl

theorem pulseExpiry_ignoresObservers (now : Word) : IgnoresObservers fun s => .next (pulseExpiry now s) := by
  refine ignoresObservers_of_state fun s => ?_
  simp only [pulseExpiry, apply_ite State.eraseObservers]
  rfl

/-- The last part of a CYCLE, after both checks. -/
def emission (now : Word) (s : State) : Result :=
  if s.inhibit then .next (emitEdgeSet now s)
  else if s.trk.period = 0#32 then .refused .moduloByZeroPeriod
  else .next (emitEdgeSet now s)

theorem onCycle_eq_emission (now : Word) (s : State) : onCycle now s = emission now (s.checked now) := rfl

theorem emission_ignoresObservers (now : Word) : IgnoresObservers (emission now) := by
  intro s
  simp only [emission, apply_ite Result.eraseObservers]
  rfl

theorem onCycle_ignoresObservers (now : Word) : IgnoresObservers (onCycle now) := by
  have hchecked := (timeoutCheck_ignoresObservers now).andThen (pulseExpiry_ignoresObservers now)
  intro s
  rw [onCycle_eq_emission, onCycle_eq_emission]
  exact (hchecked.andThen (emission_ignoresObservers now)) s

end

/-! ## EDGE: the measurement reads no lock, phase error or fault count -/

section

/-- The tracker with its observed registers cleared. -/
def Tracker.eraseObservers (t : Tracker) : Tracker :=
  { t with locked := false, lockCnt := 0, perr := 0, pacc := 0, faultCnt := 0 }

variable {t t' : Tracker} {s : State}

theorem measureEdge_eraseObservers (c : RawConfig) (ts ref : Word) (t : Tracker) :
    (measureEdge c ts ref t).eraseObservers = (measureEdge c ts ref t.eraseObservers).eraseObservers := by
  cases h : t.have1
  case false =>
    have h' : t.eraseObservers.have1 = false := h
    rw [measureEdge_first h, measureEdge_first h']
    rfl
  case true =>
    have h' : t.eraseObservers.have1 = true := h
    rw [measureEdge_predicted h, measureEdge_predicted h']
    rfl

theorem trackingFault_eraseObservers (t : Tracker) : (trackingFault t).eraseObservers = t.eraseObservers := rfl

theorem refEdge_eraseObservers (m : EdgeMode) (pol : Polarity) (t : Tracker) :
    t.eraseObservers.refEdge m pol = t.refEdge m pol := by
  cases m <;> cases pol <;> rfl

theorem eraseObservers_withTracker (s : State) (t : Tracker) :
    State.eraseObservers { s with trk := t } = { s.eraseObservers with trk := t.eraseObservers } := rfl

theorem eraseObservers_report (code : ReportCode) (info : Word) (s : State) :
    (report code info s).eraseObservers = report code info s.eraseObservers := rfl

theorem onMeasurement_ignoresObservers (ts ref : Word) : IgnoresObservers fun s => .next (onMeasurement ts ref s) := by
  refine ignoresObservers_of_state fun s => ?_
  have htrk := measureEdge_eraseObservers s.cfg.toRawConfig ts ref s.trk
  rcases onMeasurement_cases s ts ref with ⟨hin, h⟩ | ⟨hout, h⟩ <;>
    rcases onMeasurement_cases s.eraseObservers ts ref with ⟨hin', h'⟩ | ⟨hout', h'⟩ <;> rw [h, h']
  case inl.inr => exact absurd hin hout'
  case inr.inl => exact absurd hin' hout
  case inl.inl =>
    rw [eraseObservers_withTracker, htrk]
    rfl
  case inr.inr =>
    rw [eraseObservers_report, eraseObservers_withTracker, trackingFault_eraseObservers, htrk]
    rfl

theorem seeding_ignoresObservers (pol : Polarity) (ts : Word) :
    IgnoresObservers fun s => .next { s with trk := s.trk.seed pol ts } := by
  refine ignoresObservers_of_state fun s => ?_
  cases pol <;> rfl

theorem onEdge_ignoresObservers (ts : Word) (pol : Polarity) : IgnoresObservers fun s => .next (onEdge ts pol s) := by
  intro s
  have href : s.eraseObservers.trk.refEdge s.eraseObservers.cfg.edgeMode pol = s.trk.refEdge s.cfg.edgeMode pol :=
    refEdge_eraseObservers _ _ _
  dsimp only
  rcases onEdge_cases s ts pol with ⟨hnone, h⟩ | ⟨ref, hsome, h⟩
  · obtain ⟨-, -, hseeds⟩ := edgeWithoutReferenceOnlySeeds s.eraseObservers ts pol
    rw [h, hseeds (href.trans hnone)]
    exact seeding_ignoresObservers pol ts s
  · rw [h, onEdge_of_ref _ (href.trans hsome)]
    exact ((onMeasurement_ignoresObservers ts ref).andThen (seeding_ignoresObservers pol ts)) s

end

/-! ## BYTE: the commands and the parser read no error count -/

section

theorem exec_ignoresObservers (i : Instr) : IgnoresObservers (exec i) := by
  cases i
  case stop => exact ignoresObservers_of_state fun _ => rfl
  case resetFault =>
    refine ignoresObservers_of_state fun s => ?_
    simp only [resetFault, apply_ite State.eraseObservers]
    rfl
  all_goals
    refine ignoresObservers_of_state fun s => ?_
    simp only [apply_ite State.eraseObservers]
    rfl

theorem rejectFrame_ignoresObservers (r : Reject) : IgnoresObservers fun s => .next (rejectFrame r s) :=
  ignoresObservers_of_state fun s => by cases r <;> rfl

theorem advance_withErrCnt (b : Byte) (p : Parser) (n : Half) :
    Parser.advance b { p with errCnt := n } = { p.advance b with errCnt := n } := by
  cases hs : p.state with
  | idle =>
    simp only [Parser.advance, hs]
    split <;> simp only [hs]
  | cmd | len | pay | chk => simp only [Parser.advance, hs]

theorem advanceParser_ignoresObservers (b : Byte) : IgnoresObservers fun s => .next (s.advanceParser b) := by
  refine ignoresObservers_of_state fun s => ?_
  have hcp : s.eraseObservers.cp.advance b = { s.cp.advance b with errCnt := 0 } := advance_withErrCnt b s.cp 0
  rw [State.advanceParser, State.advanceParser, hcp]
  rfl

theorem dispatch_ignoresObservers : IgnoresObservers dispatch := by
  intro s
  have hframe : frameCommand s.eraseObservers.cp = frameCommand s.cp := rfl
  rw [dispatch, dispatch, hframe]
  cases frameCommand s.cp with
  | ok i => exact exec_ignoresObservers i s
  | error r => exact rejectFrame_ignoresObservers r s

/-- What comes after the parser's own movement, for the parser as the byte found it. -/
def byteEffect (b : Byte) (p : Parser) (s : State) : Result :=
  match p.state with
  | .idle => .next s
  | .cmd  => .next s
  | .len  => .next (if maxPayload < b.toNat then rejectFrame (.length b) s else s)
  | .pay  => if maxPayload ≤ p.cnt.toNat then .refused .payloadIndexPastBuffer else .next s
  | .chk  => if b = p.sum then dispatch s else .next (rejectFrame (.checksum b) s)

theorem onByte_eq_byteEffect (b : Byte) (s : State) : onByte b s = byteEffect b s.cp (s.advanceParser b) := rfl

theorem byteEffect_ignoresObservers (b : Byte) (p : Parser) : IgnoresObservers (byteEffect b p) := by
  unfold byteEffect
  cases p.state with
  | idle => exact ignoresObservers_next
  | cmd => exact ignoresObservers_next
  | len =>
    dsimp only
    split
    · exact rejectFrame_ignoresObservers _
    · exact ignoresObservers_next
  | pay =>
    dsimp only
    split
    · exact fun _ => rfl
    · exact ignoresObservers_next
  | chk =>
    dsimp only
    split
    · exact dispatch_ignoresObservers
    · exact rejectFrame_ignoresObservers _

theorem onByte_ignoresObservers (b : Byte) : IgnoresObservers (onByte b) := by
  intro s
  have hparser : byteEffect b s.eraseObservers.cp = byteEffect b s.cp := rfl
  rw [onByte_eq_byteEffect, onByte_eq_byteEffect, hparser]
  exact ((advanceParser_ignoresObservers b).andThen (byteEffect_ignoresObservers b s.cp)) s

end

/-! ## The clock -/

section

/-- The four events of a clock's ports, in their order. -/
def clockEvents (i : PortIn) (s : State) : Result :=
  (byteEvent i.byte (edgeEvent i.edge (sampleEvent i.sample s))).andThen (cycleEvent i.cycle i.now)

theorem sampleEvent_ignoresObservers (x : Option Half) : IgnoresObservers fun s => .next (sampleEvent x s) := by
  cases x with
  | none => exact ignoresObservers_next
  | some v => exact onSample_ignoresObservers v

theorem edgeEvent_ignoresObservers (e : Option Edge) : IgnoresObservers fun s => .next (edgeEvent e s) := by
  cases e with
  | none => exact ignoresObservers_next
  | some v => exact onEdge_ignoresObservers v.ts v.pol

theorem byteEvent_ignoresObservers (b : Option Byte) : IgnoresObservers (byteEvent b) := by
  cases b with
  | none => exact ignoresObservers_next
  | some v => exact onByte_ignoresObservers v

theorem cycleEvent_ignoresObservers (c : Bool) (now : Word) : IgnoresObservers (cycleEvent c now) := by
  cases c with
  | false => exact ignoresObservers_next
  | true => exact onCycle_ignoresObservers now

theorem clockEvents_ignoresObservers (i : PortIn) : IgnoresObservers (clockEvents i) :=
  (((sampleEvent_ignoresObservers i.sample).andThen (edgeEvent_ignoresObservers i.edge)).andThen
    (byteEvent_ignoresObservers i.byte)).andThen (cycleEvent_ignoresObservers i.cycle i.now)

theorem eraseObservers_nextClock (s : State) : s.eraseObservers.nextClock = s.nextClock.eraseObservers := by
  unfold State.nextClock
  cases h : s.trace <;> simp [State.eraseObservers, h]

theorem resetRegisters_ignoresObservers : IgnoresObservers fun s => .next s.resetRegisters :=
  ignoresObservers_of_state fun _ => rfl

theorem step_ignoresObservers : IgnoresObservers step := by
  intro s
  have hclock := eraseObservers_nextClock s
  have hinp : s.eraseObservers.nextClock.inp = s.nextClock.inp := by rw [hclock]; rfl
  cases hr : s.nextClock.inp.reset with
  | true =>
    rw [step_of_reset hr, step_of_reset (hinp ▸ hr), hclock]
    exact resetRegisters_ignoresObservers s.nextClock
  | false =>
    have hstep : step s = clockEvents s.nextClock.inp s.nextClock := step_of_no_reset hr
    have hstep' : step s.eraseObservers = clockEvents s.eraseObservers.nextClock.inp s.eraseObservers.nextClock :=
      step_of_no_reset (hinp ▸ hr)
    rw [hstep, hstep', hinp, hclock]
    exact clockEvents_ignoresObservers s.nextClock.inp s.nextClock

end

/-! ## The statement -/

/-- Settles O60: each event of a clock ignores the observed registers, so the whole clock does. -/
theorem observedRegistersSteerNothing : Obligations.ObservedRegistersSteerNothing :=
  fun _ _ h => step_ignoresObservers.congr h

end Sys2Proof.Machine

end
